-- ==== Sys2Proof/Word.lean ====
section
/-! DEFINITION. The two sizes of value of the engine: a byte and a 32-bit word (00_scope.md R16).
All values are unsigned; there is no sign extension anywhere in this hardware. -/

namespace Sys2Proof

/-- `u8` (R16): one byte of the buffer or of a byte sequence. -/
abbrev Byte := BitVec 8

/-- `u32` (R16): a register, a command word or a cipher word. -/
abbrev Word := BitVec 32

end Sys2Proof
end

