-- ==== Sys2Proof/Config.lean ====
section
/-! DEFINITION. What is fixed for one machine (00_scope.md section 4: "every parameter is a field of the
model's configuration"), and the values the spec leaves open, which are constants without a body.
The configuration the model runs with is `Machine.cfg` (Machine/Params.lean). -/

namespace Sys2Proof

/-- The cipher key as four little-endian words, `KEY[0]` .. `KEY[3]` (10_state.md R22). -/
structure Key where
  k0 : Word
  k1 : Word
  k2 : Word
  k3 : Word
deriving DecidableEq, Repr

/-- `BLOCK_CIPHER = (BLK_ENC, BLK_DEC)` (00_scope.md R13, 41_cipher.md R113), on the pair `(v0, v1)` of words
that R112 forms from a block. That a block reaches the cipher only through these two words is property P4 of
R113; that the result depends on the key and the block alone is property P1. -/
structure BlockCipher where
  enc : Key → Word × Word → Word × Word
  dec : Key → Word × Word → Word × Word

/-- Property P2 of 41_cipher.md R113: `BLK_DEC(K, BLK_ENC(K, b)) = b` and `BLK_ENC(K, BLK_DEC(K, b)) = b`. -/
structure BlockCipher.Inverse (C : BlockCipher) : Prop where
  dec_enc : ∀ K v, C.dec K (C.enc K v) = v
  enc_dec : ∀ K v, C.enc K (C.dec K v) = v

/-- The implementation parameters (00_scope.md R6 to R15) that are numbers or functions.
`BLOCK_BYTES = 8` and `DIGEST_BYTES = 4` (R6, R10) are in the types of a block and of a digest. -/
structure Params where
  /-- `KEY_BYTES` (R7). -/
  keyBytes : Nat
  /-- `MAX_PAYLOAD` (R11), a parameter of the host codec. -/
  maxPayload : Nat
  /-- `BUFSZ` (R12). -/
  bufsz : Nat
  /-- `BLOCK_CIPHER` (R13), which holds `NCYCLES` (R8). -/
  blockCipher : BlockCipher
  /-- `ADLER_MOD`, `ADLER_A0`, `ADLER_B0` (R14). -/
  adlerMod : Nat
  adlerA0 : Nat
  adlerB0 : Nat
  /-- Whether the platform offers 16- and 32-bit accesses to `BUF` (20_memory.md R52). The default is that it does not, and
  the model refuses them (93_implementation_defined.md U26; log 12). -/
  wideBuf : Bool

/-- What R12 asks of a `BUFSZ`. -/
def Params.BufszLegal (c : Params) : Prop := c.bufsz % 8 = 0 ∧ 8 ≤ c.bufsz

/-- A number written in decimal: `unscaled / 10 ^ scale`. It is the type of the packet flag
`protocol_version`, "decimal" in 42_codec_sequences.md R144, which nothing reads (PRESUMED, log 20). -/
structure Decimal where
  unscaled : Int
  scale : Nat
deriving DecidableEq, Repr, Inhabited

/-- FREE VALUE. The byte that `BUF[i]` holds when neither the host nor a command has written it since reset
number `epoch` (10_state.md R43, 70_reset_and_hazards.md R190 to R192): "each byte may hold any value".
Arguments: the epoch, the offset. Log entry 4. -/
opaque Config.unwrittenByte : Nat → Nat → Byte

/-- FREE VALUE. What the n-th unspecified read returns (70_reset_and_hazards.md R196): "any value, under no law,
possibly different on each read". Log entry 5. -/
opaque Config.unspecifiedRead : Nat → Word

/-- FREE VALUE. The default of `protocol_version`, for which the source has none (91_not_in_source.md N6). Log entry 20. -/
opaque Config.defaultProtocolVersion : Decimal

/-- FREE VALUE. Byte 0 and byte 1 of `LE16(n)` for `n > 65535`, where `LE16` "is not defined" (00_scope.md R18).
Arguments: the number, the place. Log entry 29. -/
opaque Config.undefinedLE16 : Nat → Nat → Byte

/-- `REG_BASE`, OPEN (00_scope.md R15): the host address of register offset 0. Log entry 14. -/
opaque Config.regBase : Nat

/-- `BUF_BASE`, OPEN (00_scope.md R15): the host address of buffer offset 0. Log entry 14. -/
opaque Config.bufBase : Nat

end Sys2Proof
end

