-- ==== Sys2Proof/Machine/Bytes.lean ====
section
/-! DEFINITION. Byte sequences and integer renderings (00_scope.md R17 to R19). -/

namespace Sys2Proof.Machine

/-- `LE32(w)` (R18): the four bytes of a word, least significant first. -/
def toLE32 (w : Word) : List Byte :=
  [w.extractLsb' 0 8, w.extractLsb' 8 8, w.extractLsb' 16 8, w.extractLsb' 24 8]

/-- `BE32(w) = rev(LE32(w))` (R18). -/
def toBE32 (w : Word) : List Byte := (toLE32 w).reverse

/-- `le32(s)` (R18) of a 4-byte sequence: `s[0] + 2^8 s[1] + 2^16 s[2] + 2^24 s[3]`.
An index that `s` does not have counts as 0, which no use of it relies on. -/
def ofLE32 (s : List Byte) : Word :=
  BitVec.ofNat 32 ((s.getD 0 0).toNat + 2 ^ 8 * (s.getD 1 0).toNat + 2 ^ 16 * (s.getD 2 0).toNat
    + 2 ^ 24 * (s.getD 3 0).toNat)

/-- `be32(s) = le32(rev(s))` (R18), for a 4-byte sequence. No rule of the spec uses it. -/
def ofBE32 (s : List Byte) : Word := ofLE32 s.reverse

/-- `LE16(n)` (R18): `[n mod 256, n div 256]`. Above 65535 it "is not defined": two free bytes, the model's choice of
a form for it (DESIGN CHOICE, log 29). -/
def toLE16 (n : Nat) : List Byte :=
  if n ≤ 65535 then [BitVec.ofNat 8 (n % 256), BitVec.ofNat 8 (n / 256)]
  else [Config.undefinedLE16 n 0, Config.undefinedLE16 n 1]

/-- `le16(s)` (R18) of a 2-byte sequence: `s[0] + 256 s[1]`.
An index that `s` does not have counts as 0, which no use of it relies on. -/
def ofLE16 (s : List Byte) : Nat := (s.getD 0 0).toNat + 256 * (s.getD 1 0).toNat

/-- `zeros(n)` (R17). -/
def zeros (n : Nat) : List Byte := List.replicate n 0

/-- `s[a:b)` (R17). -/
def slice (s : List Byte) (a b : Nat) : List Byte := (s.drop a).take (b - a)

/-- `pad8(n) = 8 * ceil(n / 8)` (R19): the least multiple of 8 that is `>= n`. -/
def pad8 (n : Nat) : Nat := 8 * ((n + 7) / 8)

/-- `padded(p) = p ++ zeros(pad8(len(p)) - len(p))` (41_cipher.md R119): null padding, never a whole block of it. -/
def padded (p : List Byte) : List Byte := p ++ zeros (pad8 p.length - p.length)

end Sys2Proof.Machine
end

