-- ==== Sys2Proof/Syntax.lean ====
section
/-! DEFINITION. The six commands of the opcode table (30_encoding.md R76, R88). A command has no operand in
its encoding (R75, R79): every operand is an implicit register. -/

namespace Sys2Proof

/-- The engine's instructions, one constructor per row of spec/opcode_table.json. -/
inductive Instr where
  /-- `CSINIT` (40_checksum.md R97): start a new checksum. -/
  | csinit
  /-- `CSUPD` (40_checksum.md R98): continue the running checksum over the buffer. -/
  | csupd
  /-- `CSUM` (40_checksum.md R99): one-shot checksum of the buffer. -/
  | csum
  /-- `ENC` (41_cipher.md R121): encrypt the buffer in place. -/
  | enc
  /-- `DEC` (41_cipher.md R122): decrypt the buffer in place. -/
  | dec
  /-- `KEYCLR` (41_cipher.md R124): erase the key. -/
  | keyclr
deriving DecidableEq, Repr

end Sys2Proof
end

