-- ==== Sys2Proof/WellFormed.lean ====
section
/-! DEFINITION. Well-formedness. An instruction carries no operand, so each one is well formed; what can be
ill formed is a command word's pair of fields, format `C` of 30_encoding.md R75. -/

namespace Sys2Proof

/-- The two fields of a command word, format `C` (30_encoding.md R75). -/
structure CommandFields where
  /-- bits 7:0, the operation code -/
  op : BitVec 8
  /-- bits 31:8, reserved -/
  rsv : BitVec 24
deriving DecidableEq, Repr

/-- "`rsv`: reserved, must be 0" (R75). -/
def CommandFields.reservedClear (f : CommandFields) : Bool := f.rsv == 0

/-- The operation code is one of 0x01..0x06 (R76); `0x00` and `0x07..0xFF` are illegal (R78). -/
def CommandFields.opAssigned (f : CommandFields) : Bool := 1 ≤ f.op.toNat && f.op.toNat ≤ 6

/-- A command word names a command exactly when both checks pass (R76, R78). -/
def CommandFields.wellFormed (f : CommandFields) : Bool := f.reservedClear && f.opAssigned

/-- No command has operands, so no instruction is ill formed (R75: no register fields, no immediate fields,
no mode or qualifier bits and no prefix). -/
def Instr.wellFormed : Instr → Bool
  | .csinit => true
  | .csupd => true
  | .csum => true
  | .enc => true
  | .dec => true
  | .keyclr => true

end Sys2Proof
end

