-- ==== Sys2Proof/Decode.lean ====
section
/-! DEFINITION. The decoder, total on 32-bit words and on byte sequences of any length (30_encoding.md R75 to
R78, R80), and after it the encoder. A word that is no command is rejected by name; the engine's *complete* step
turns any rejection into the error `IllegalCommand` (R78). -/

namespace Sys2Proof

/-- Why a command word, or a byte sequence, is no command. -/
inductive DecodeReject where
  /-- bits 31:8 are not all 0 (R75, R78) -/
  | reservedBitsSet
  /-- the operation code is 0x00 or 0x07..0xFF (R78) -/
  | opNotAssigned
  /-- not exactly one 32-bit word (R80) -/
  | notOneWord
deriving DecidableEq, Repr

/-- The fields of a command word (R75). -/
def fieldsOf (w : Word) : CommandFields := { op := w.extractLsb' 0 8, rsv := w.extractLsb' 8 24 }

/-- The opcode map (R76), read from the operation code. -/
def instrOfOp (op : BitVec 8) : Option Instr :=
  if op = 0x01 then some .csinit
  else if op = 0x02 then some .csupd
  else if op = 0x03 then some .csum
  else if op = 0x04 then some .enc
  else if op = 0x05 then some .dec
  else if op = 0x06 then some .keyclr
  else none

/-- `decode(w)` (R77). It reads no state. -/
def decodeWord (w : Word) : Except DecodeReject Instr :=
  if (fieldsOf w).rsv ≠ 0 then .error .reservedBitsSet
  else match instrOfOp (fieldsOf w).op with
    | some i => .ok i
    | none => .error .opNotAssigned

/-- The decoder on bytes: a command is the one little-endian word that lies in the lanes of `CMD`
(R80; 20_memory.md R57). -/
def decodeBytes : List Byte → Except DecodeReject Instr
  | [b0, b1, b2, b3] => decodeWord (Machine.ofLE32 [b0, b1, b2, b3])
  | _ => .error .notOneWord

/-- The operation code of a command (R76). -/
def opOf : Instr → BitVec 8
  | .csinit => 0x01
  | .csupd => 0x02
  | .csum => 0x03
  | .enc => 0x04
  | .dec => 0x05
  | .keyclr => 0x06

/-- The fields the encoder writes: the operation code, and 0 in the reserved bits (R75). -/
def encodeFields (i : Instr) : CommandFields := { op := opOf i, rsv := 0 }

/-- The word of a pair of fields (R75): `rsv` in 31:8, `op` in 7:0. -/
def wordOf (f : CommandFields) : Word := f.rsv ++ f.op

/-- The command word of an instruction (R76). -/
def encode (i : Instr) : Word := wordOf (encodeFields i)

/-- The four bytes of a command word as a host stores them at `CMD` (20_memory.md R57). -/
def encodeBytes (i : Instr) : List Byte := Machine.toLE32 (encode i)

/-- The command word that the host's check writes as a number: the bits above `nbits` are 0. -/
def tableWord (nbits w : Nat) : Word := BitVec.ofNat 32 (w % 2 ^ nbits)

/-- The instruction this decoder reads from an instruction whose bits are `w`, numbered as
spec/opcode_table.json numbers them, laid out as the hardware stores them: one word, little-endian
(R75, 20_memory.md R57; DEDUCED, log 24). No command is longer than 32 bits (R80). -/
def decodeTableWord (nbits w : Nat) : Option Instr :=
  if nbits ≤ 32 then (decodeBytes (Machine.toLE32 (tableWord nbits w))).toOption else none

end Sys2Proof
end

