-- ==== Sys2Proof/Machine/BlockCipher.lean ====
section
/-! DEFINITION. The default `BLOCK_CIPHER` of 41_cipher.md R114 to R118, on the words of R111 and R112.
The spec supplies it from general knowledge (G1, G2; C5); log entry 9. -/

namespace Sys2Proof.Machine

/-- `DELTA` (R114). -/
def delta : Nat := 0x9E3779B9

/-- `sum_i = (i * DELTA) mod 2^32` (R114). -/
def sumAt (i : Nat) : Word := BitVec.ofNat 32 (i * delta)

/-- `K[n & 3]`, the key word a sub-key uses (R114, R118: the index is always in 0..3). -/
def keyWord (K : Key) (n : Word) : Word :=
  if n &&& 3 = 0 then K.k0 else if n &&& 3 = 1 then K.k1 else if n &&& 3 = 2 then K.k2 else K.k3

/-- `SK0[i] = sum_i + K[sum_i & 3]` (R114). -/
def subKey0 (K : Key) (i : Nat) : Word := sumAt i + keyWord K (sumAt i)

/-- `SK1[i] = sum_{i+1} + K[(sum_{i+1} >> 11) & 3]` (R114). -/
def subKey1 (K : Key) (i : Nat) : Word := sumAt (i + 1) + keyWord K (sumAt (i + 1) >>> 11)

/-- `mix(v) = ((v << 4) ^ (v >> 5)) + v` (R115). -/
def mix (v : Word) : Word := ((v <<< 4) ^^^ (v >>> 5)) + v

/-- One cycle of `BLK_ENC` (R116): the second line uses the `v0` just written. -/
def encCycle (K : Key) (i : Nat) (v : Word × Word) : Word × Word :=
  let v0 := v.1 + (mix v.2 ^^^ subKey0 K i)
  (v0, v.2 + (mix v0 ^^^ subKey1 K i))

/-- One cycle of `BLK_DEC` (R117): the second line uses the `v1` just written. -/
def decCycle (K : Key) (i : Nat) (v : Word × Word) : Word × Word :=
  let v1 := v.2 - (mix v.1 ^^^ subKey1 K i)
  (v.1 - (mix v1 ^^^ subKey0 K i), v1)

/-- Cycles `0 .. n-1` of R116, in that order. -/
def encCycles (K : Key) : Nat → Word × Word → Word × Word
  | 0, v => v
  | n + 1, v => encCycle K n (encCycles K n v)

/-- Cycles `n-1` down to `0` of R117. -/
def decCycles (K : Key) : Nat → Word × Word → Word × Word
  | 0, v => v
  | n + 1, v => decCycles K n (decCycle K n v)

/-- The default cipher with a given number of cycles (R116, R117). -/
def feistelCipher (ncycles : Nat) : BlockCipher where
  enc K v := encCycles K ncycles v
  dec K v := decCycles K ncycles v

end Sys2Proof.Machine
end

