-- ==== Sys2Proof/Machine/Params.lean ====
section
/-! DEFINITION. The configuration the model runs with: the default of every parameter of 00_scope.md
section 4. Log entries 8 (BUFSZ), 9 (cipher), 10 (checksum constants), 12 (wide buffer accesses). -/

namespace Sys2Proof.Machine

/-- `NCYCLES = 32` (R8; 90_conflicts.md C5: 32 passes of the loop, each of two half-rounds). -/
def ncycles : Nat := 32

/-- The default configuration (R7, R8, R11 to R14). -/
def cfg : Params where
  keyBytes := 16
  maxPayload := 65535
  bufsz := 65544
  blockCipher := feistelCipher ncycles
  adlerMod := 65521
  adlerA0 := 1
  adlerB0 := 0
  wideBuf := false

end Sys2Proof.Machine
end

