-- ==== Sys2Proof/Machine/State.lean ====
section
/-! DEFINITION. The state of the machine as plain data: everything 10_state.md R21 lists, the host port's
pending inputs and received values, and the two counters of the free values. -/

namespace Sys2Proof.Machine

/-- The engine's two address spaces (20_memory.md R50). -/
inductive Space where
  | reg
  | buf
deriving DecidableEq, Repr

/-- One access of the host (10_state.md R20; 00_scope.md section 6 `MemRead`, `MemWrite`): the space, the byte
offset in it, the width in bytes, and for a write the value, of which the low `8 * width` bits count. -/
inductive Access where
  | read (space : Space) (off width : Nat)
  | write (space : Space) (off width : Nat) (value : Word)
deriving DecidableEq, Repr

/-- What may happen next, as plain data: an access of the host, a turn of the engine (10_state.md R20), or a
reset delivered by the platform (70_reset_and_hazards.md R190). -/
inductive Event where
  | host (acc : Access)
  | engine
  | reset
deriving DecidableEq, Repr

/-- The fields of `STATUS` (10_state.md R28). -/
structure Status where
  /-- bit 0: a command has been accepted and has not completed -/
  busy : Bool
  /-- bit 1: the last accepted command has completed -/
  done : Bool
  /-- bit 2: the last completed command ended with an error -/
  err : Bool
  /-- bit 3, sticky: a host write arrived while busy and was dropped -/
  haz : Bool
  /-- bits 7:4: the error kind of the last completed command -/
  errcode : BitVec 4
deriving DecidableEq, Repr

/-- The written bytes of `BUF`, as (offset, byte) pairs. An offset that is not listed has not been written since
reset, and the spec gives it no value (10_state.md R43). -/
abbrev Memory := List Host.Cell

/-- The one canonical form of a memory: offsets strictly rising. An unlisted offset has no value of its own, so
no listed byte can equal it and nothing more is asked. -/
abbrev Memory.wf (m : Memory) : Prop := m.Pairwise (fun c d => c.1 < d.1)

/-- The machine's state. The first eight fields are 10_state.md R21, whole; the last four are the model's own
(log entries 1, 4, 5, 7). -/
structure State where
  /-- `KEY[0..3]` (R22) -/
  key : Key
  /-- `KLEN` (R23) -/
  klen : Word
  /-- `LEN` (R24) -/
  len : Word
  /-- `A` (R25) -/
  a : BitVec 16
  /-- `B` (R25) -/
  b : BitVec 16
  /-- `BUF` (R27) -/
  buf : Memory
  /-- `STATUS` (R28) -/
  status : Status
  /-- `PEND` (R29) -/
  pend : Word
  /-- the events still to come, the next one first -/
  inputs : List Event
  /-- the values the host's reads have returned, the newest first -/
  readLog : List Word
  /-- how many resets there have been: the index of the free values of unwritten bytes -/
  epoch : Nat
  /-- how many unspecified values have been read: the index of the next -/
  draws : Nat
deriving DecidableEq, Repr

/-- Why the machine stops with a fault: for no reason. The spec describes no stop ("There is no state in which
the engine is stuck", 70_reset_and_hazards.md R199), an error of a command is a next state (60_exceptions.md R171),
and undefined accesses are refused, so nothing raises a fault (log entry 23). -/
inductive Fault
deriving DecidableEq, Repr

/-- Why the machine refuses a step. All but the first are raised by the host port (Machine/Port.lean) for an access
that "has no meaning in this spec"; each is safe: the model stops where a platform may go on. -/
inductive Refusal where
  /-- Raised by `exec` for an instruction without a meaning; no arm does so. Safe. -/
  | notModelled (mnemonic : String)
  /-- Raised by the host port: a `REG` access that is not 32 bits wide (20_memory.md R51). Safe. -/
  | regAccessNotWord
  /-- Raised by the host port: a `REG` access at an offset that is no multiple of 4 (20_memory.md R51). Safe. -/
  | regAccessMisaligned
  /-- Raised by the host port: a `REG` offset at or above 0x100 (10_state.md R42). Safe. -/
  | outsideReg
  /-- Raised by the host port: a `BUF` access of a width that has no meaning (20_memory.md R52). Safe. -/
  | bufAccessWidth
  /-- Raised by the host port: a `BUF` access that reaches offset `BUFSZ` or beyond (20_memory.md R52). Safe. -/
  | outsideBuf
deriving DecidableEq, Repr

/-- `STATUS` after reset (10_state.md R43). -/
def Status.reset : Status := { busy := false, done := false, err := false, haz := false, errcode := 0 }

/-- The machine right after reset (10_state.md R43). `BUF` lists nothing: every byte is unspecified. `pend` is 0 by
DESIGN CHOICE (log 6; the spec: "unspecified, unobservable"), and so are the model's own fields (logs 1, 4, 5, 7). -/
def State.reset : State where
  key := { k0 := 0, k1 := 0, k2 := 0, k3 := 0 }
  klen := 0
  len := 0
  a := BitVec.ofNat 16 cfg.adlerA0
  b := BitVec.ofNat 16 cfg.adlerB0
  buf := []
  status := Status.reset
  pend := 0
  inputs := []
  readLog := []
  epoch := 0
  draws := 0

end Sys2Proof.Machine
end

