-- ==== Sys2Proof/Machine/Flags.lean ====
section
/-! DEFINITION. `STATUS` and the error codes: every computation of a status bit the spec gives. The engine has no
arithmetic flags (10_state.md R32). -/

namespace Sys2Proof.Machine

/-- The nine error kinds (60_exceptions.md R165). The engine raises four of them (R166); the others are results
of the host's sequences only (R167). -/
inductive ErrorKind where
  | frameTooShort
  | lengthMismatch
  | checksumMismatch
  | invalidKeySize
  | invalidBlockAlignment
  | payloadLengthOverflow
  | payloadTooLarge
  | illegalCommand
  | lengthOutOfRange
deriving DecidableEq, Repr

/-- `code(E)` (60_exceptions.md R165). -/
def errorCode : ErrorKind → BitVec 4
  | .frameTooShort => 1
  | .lengthMismatch => 2
  | .checksumMismatch => 3
  | .invalidKeySize => 4
  | .invalidBlockAlignment => 5
  | .payloadLengthOverflow => 6
  | .payloadTooLarge => 7
  | .illegalCommand => 8
  | .lengthOutOfRange => 9

/-- The kind a code names (60_exceptions.md R165): 0 is no error, 10..15 are reserved. -/
def errorOfCode (c : BitVec 4) : Option ErrorKind :=
  if c = 1 then some .frameTooShort
  else if c = 2 then some .lengthMismatch
  else if c = 3 then some .checksumMismatch
  else if c = 4 then some .invalidKeySize
  else if c = 5 then some .invalidBlockAlignment
  else if c = 6 then some .payloadLengthOverflow
  else if c = 7 then some .payloadTooLarge
  else if c = 8 then some .illegalCommand
  else if c = 9 then some .lengthOutOfRange
  else none

/-- The 32-bit `STATUS` register (10_state.md R28): `BUSY` bit 0, `DONE` bit 1, `ERR` bit 2, `HAZ` bit 3,
`ERRCODE` bits 7:4, bits 31:8 read as 0. -/
def statusWord (st : Status) : Word :=
  (0 : BitVec 24) ++ st.errcode ++ BitVec.ofBool st.haz ++ BitVec.ofBool st.err ++ BitVec.ofBool st.done
    ++ BitVec.ofBool st.busy

/-- `STATUS` when a command is accepted (30_encoding.md R85). `HAZ` is unchanged. -/
def statusAccepted (st : Status) : Status := { st with busy := true, done := false, err := false, errcode := 0 }

/-- `STATUS` when a command completes without error (30_encoding.md R86). -/
def statusCompleted (st : Status) : Status := { st with busy := false, done := true, err := false, errcode := 0 }

/-- `STATUS` when a command ends with error `e` (60_exceptions.md R171). -/
def statusRaised (e : ErrorKind) (st : Status) : Status :=
  { st with busy := false, done := true, err := true, errcode := errorCode e }

/-- `STATUS` when a host write is dropped (70_reset_and_hazards.md R195). -/
def statusHazard (st : Status) : Status := { st with haz := true }

end Sys2Proof.Machine
end

