-- ==== Sys2Proof/Machine/Ops.lean ====
section
/-! DEFINITION. The shared operations: the buffer's bytes, the free values, and how a command is accepted, completes
and ends with an error. -/

namespace Sys2Proof.Machine

/-- What is written at an offset since reset, if anything. -/
def Memory.lookup : Memory → Nat → Option Byte
  | [], _ => none
  | (x, v) :: m, i => if x = i then some v else Memory.lookup m i

/-- Writes one byte, keeping the offsets strictly rising. -/
def Memory.store : Memory → Nat → Byte → Memory
  | [], i, v => [(i, v)]
  | (x, w) :: m, i, v =>
    if i < x then (i, v) :: (x, w) :: m
    else if i = x then (i, v) :: m
    else (x, w) :: Memory.store m i v

/-- `BUF[a:a+len(s)) <- s` (00_scope.md section 6). -/
def Memory.storeBytes : Memory → Nat → List Byte → Memory
  | m, _, [] => m
  | m, i, v :: s => Memory.storeBytes (Memory.store m i v) (i + 1) s

/-- `BUF[i]`: the byte written last, or the free value of a byte not written since reset (10_state.md R43; log 4).
Reading it changes nothing and gives the same value each time (20_memory.md R66). -/
def bufByte (s : State) (i : Nat) : Byte :=
  match Memory.lookup s.buf i with
  | some v => v
  | none => Config.unwrittenByte s.epoch i

/-- `BUF[a:a+n)` (00_scope.md section 6). -/
def bufBytes (s : State) (a n : Nat) : List Byte := (List.range' a n).map (bufByte s)

/-- `BUF[a:a+len(v)) <- v`. -/
def writeBuf (s : State) (a : Nat) (v : List Byte) : State :=
  { s with buf := Memory.storeBytes s.buf a v }

/-- One unspecified value (70_reset_and_hazards.md R196): a fresh free value, and the state with the counter
advanced (log 5). -/
def drawWord (s : State) : Word × State :=
  (Config.unspecifiedRead s.draws, { s with draws := s.draws + 1 })

/-- A write of `CMD` is accepted (30_encoding.md R85): "No other state changes at acceptance". -/
def accept (w : Word) (s : State) : State := { s with pend := w, status := statusAccepted s.status }

/-- A command completes without error (30_encoding.md R86): its writes are done, `STATUS` says so. -/
def finish (s : State) : State := { s with status := statusCompleted s.status }

/-- `raise E` (60_exceptions.md R171), the engine's way of taking an exception: `STATUS` alone is written, and "no
mode changes, no mask changes, nothing is pushed or saved, control goes nowhere". There is no return instruction
(R173): the next accepted command (`accept`) or a reset clears `ERR` and `ERRCODE`. -/
def raise (e : ErrorKind) (s : State) : State := { s with status := statusRaised e s.status }

/-- How a command completes (30_encoding.md R86, 60_exceptions.md R172): if a check names an error it is raised
before any write, otherwise the whole effect happens. -/
def complete (check : Option ErrorKind) (effect : State → State) (s : State) :
    Host.Outcome State Fault Refusal :=
  match check with
  | some e => .next (raise e s)
  | none => .next (finish (effect s))

end Sys2Proof.Machine
end

