-- ==== Sys2Proof/Machine/Operands.lean ====
section
/-! DEFINITION. The operands of the commands, all implicit (30_encoding.md R76, R79), the views of registers, and
the checks a command makes on its operands, in the order of 60_exceptions.md R170. -/

namespace Sys2Proof.Machine

/-- `LEN` as a number. -/
def lenNat (s : State) : Nat := s.len.toNat

/-- `BUF[0:LEN)`, the operand of every data command (10_state.md R24). -/
def operandBytes (s : State) : List Byte := bufBytes s 0 (lenNat s)

/-- The key-byte view (10_state.md R22). -/
def keyBytesOf (K : Key) : List Byte := toLE32 K.k0 ++ toLE32 K.k1 ++ toLE32 K.k2 ++ toLE32 K.k3

/-- The four key words of 16 key bytes, `K[n] = le32(k[4n:4n+4))` (41_cipher.md R111). -/
def keyOfBytes (k : List Byte) : Key :=
  { k0 := ofLE32 (slice k 0 4), k1 := ofLE32 (slice k 4 8), k2 := ofLE32 (slice k 8 12), k3 := ofLE32 (slice k 12 16) }

/-- `CSUM = B * 65536 + A`, the read-only view (10_state.md R26). -/
def csumView (s : State) : Word := s.b ++ s.a

/-- `if LEN > BUFSZ: raise LengthOutOfRange` (60_exceptions.md R166). -/
def rangeCheck (s : State) : Option ErrorKind :=
  if cfg.bufsz < lenNat s then some .lengthOutOfRange else none

/-- `if KLEN != 16: raise InvalidKeySize` (60_exceptions.md R166, 41_cipher.md R126). -/
def keyCheck (s : State) : Option ErrorKind :=
  if s.klen.toNat = cfg.keyBytes then none else some .invalidKeySize

/-- `if LEN mod 8 != 0: raise InvalidBlockAlignment` (60_exceptions.md R166, 41_cipher.md R127). -/
def alignCheck (s : State) : Option ErrorKind :=
  if lenNat s % 8 = 0 then none else some .invalidBlockAlignment

/-- The checks of `ENC`, first match wins (60_exceptions.md R170, 41_cipher.md R121). -/
def encCheck (s : State) : Option ErrorKind := (rangeCheck s).or (keyCheck s)

/-- The checks of `DEC`, first match wins (60_exceptions.md R170, 41_cipher.md R122). -/
def decCheck (s : State) : Option ErrorKind := ((rangeCheck s).or (keyCheck s)).or (alignCheck s)

end Sys2Proof.Machine
end

