-- ==== Sys2Proof/Machine/Checksum.lean ====
section
/-! DEFINITION. The checksum unit: 40_checksum.md, its arithmetic (R95, R96, R100, R101) and its three commands
(R97 to R99). Log entry 10. -/

namespace Sys2Proof.Machine

/-- `adler_step(a, b, x)` (R95): `b'` uses the new `a'`. Natural numbers, then an explicit `mod` (00_scope.md R19). -/
def adlerStep (p : Nat × Nat) (x : Byte) : Nat × Nat :=
  let a := (p.1 + x.toNat) % cfg.adlerMod
  (a, (p.2 + a) % cfg.adlerMod)

/-- `adler_run(a, b, s)` (R96): a left fold of the step over the bytes in order. -/
def adlerRun (p : Nat × Nat) (s : List Byte) : Nat × Nat := s.foldl adlerStep p

/-- The initial accumulators (00_scope.md R14). -/
def adlerInit : Nat × Nat := (cfg.adlerA0, cfg.adlerB0)

/-- The 32-bit checksum value of a pair of accumulators, `b * 65536 + a` (R96). -/
def adlerValue (p : Nat × Nat) : Word := BitVec.ofNat 32 (p.2 * 65536 + p.1)

/-- `adler32(s)` (R96). -/
def adler32 (s : List Byte) : Word := adlerValue (adlerRun adlerInit s)

/-- `compute(bytes) -> 4-byte digest` (R91, R100): the natural output, most significant byte first. -/
def digest (s : List Byte) : List Byte := toBE32 (adler32 s)

/-- The wire form of the checksum: the digest reversed (R101, 42_codec_sequences.md R143). -/
def wireChecksum (s : List Byte) : List Byte := (digest s).reverse

/-- The accumulators as numbers. -/
def accumulators (s : State) : Nat × Nat := (s.a.toNat, s.b.toNat)

/-- `(A, B) <- p`. -/
def setAccumulators (p : Nat × Nat) (s : State) : State :=
  { s with a := BitVec.ofNat 16 p.1, b := BitVec.ofNat 16 p.2 }

/-- `CSINIT` (R97): `A <- 1; B <- 0`. -/
def execCsinit (s : State) : Host.Outcome State Fault Refusal :=
  complete none (setAccumulators adlerInit) s

/-- `CSUPD` (R98): `(A, B) <- adler_run(A, B, BUF[0:LEN))`. -/
def execCsupd (s : State) : Host.Outcome State Fault Refusal :=
  complete (rangeCheck s) (setAccumulators (adlerRun (accumulators s) (operandBytes s))) s

/-- `CSUM` (R99): `(A, B) <- adler_run(1, 0, BUF[0:LEN))`. -/
def execCsum (s : State) : Host.Outcome State Fault Refusal :=
  complete (rangeCheck s) (setAccumulators (adlerRun adlerInit (operandBytes s))) s

end Sys2Proof.Machine
end

