-- ==== Sys2Proof/Machine/Cipher.lean ====
section
/-! DEFINITION. The cipher unit: 41_cipher.md, the mode (R112, R119, R120, R123) and its three commands (R121, R122,
R124). Log entry 11 (byte order of the block halves). -/

namespace Sys2Proof.Machine

/-- The mode (R120) and the words of a block (R112): every 8 bytes become `v0 = le32(b[0:4))`, `v1 = le32(b[4:8))`, and
the result is `LE32(v0') ++ LE32(v1')`, block by block and each on its own. A rest of fewer than 8 bytes gives
nothing; no command has one. -/
def ecbMap (f : Word × Word → Word × Word) : List Byte → List Byte
  | b0 :: b1 :: b2 :: b3 :: b4 :: b5 :: b6 :: b7 :: rest =>
    let v := f (ofLE32 [b0, b1, b2, b3], ofLE32 [b4, b5, b6, b7])
    toLE32 v.1 ++ toLE32 v.2 ++ ecbMap f rest
  | _ => []

/-- `ecb_enc(K, p)` (R120) with a given block cipher. -/
def ecbEnc (C : BlockCipher) (K : Key) (p : List Byte) : List Byte := ecbMap (C.enc K) p

/-- `ecb_dec(K, c)` (R120) with a given block cipher. -/
def ecbDec (C : BlockCipher) (K : Key) (c : List Byte) : List Byte := ecbMap (C.dec K) c

/-- The effect of `ENC` (R121): pad with zeros, encipher in place, `LEN <- pad8(LEN)`. -/
def encEffect (s : State) : State :=
  { writeBuf s 0 (ecbEnc cfg.blockCipher s.key (padded (operandBytes s))) with
    len := BitVec.ofNat 32 (pad8 (lenNat s)) }

/-- The effect of `DEC` (R122): decipher in place; no padding is stripped (R123). -/
def decEffect (s : State) : State :=
  writeBuf s 0 (ecbDec cfg.blockCipher s.key (operandBytes s))

/-- The effect of `KEYCLR` (R124). -/
def clearKey (s : State) : State := { s with key := { k0 := 0, k1 := 0, k2 := 0, k3 := 0 }, klen := 0 }

/-- `ENC` (R121). -/
def execEnc (s : State) : Host.Outcome State Fault Refusal := complete (encCheck s) encEffect s

/-- `DEC` (R122). -/
def execDec (s : State) : Host.Outcome State Fault Refusal := complete (decCheck s) decEffect s

/-- `KEYCLR` (R124). It has no check: it raises nothing (60_exceptions.md R166). -/
def execKeyclr (s : State) : Host.Outcome State Fault Refusal := complete none clearKey s

end Sys2Proof.Machine
end

