-- ==== Sys2Proof/Machine/Dispatch.lean ====
section
/-! DEFINITION. What each command does at the engine's *complete* step (30_encoding.md R86): one arm per command. -/

namespace Sys2Proof.Machine

def exec (i : Instr) (s : State) : Host.Outcome State Fault Refusal :=
  match i with
  | .csinit => Sys2Proof.Machine.execCsinit s
  | .csupd => Sys2Proof.Machine.execCsupd s
  | .csum => Sys2Proof.Machine.execCsum s
  | .enc => Sys2Proof.Machine.execEnc s
  | .dec => Sys2Proof.Machine.execDec s
  | .keyclr => Sys2Proof.Machine.execKeyclr s

end Sys2Proof.Machine
end

