-- ==== Sys2Proof/Machine/Port.lean ====
section
/-! DEFINITION. The host port: the register map (10_state.md R37 to R42), host reads and writes while idle
(20_memory.md R55, R56) and while busy (70_reset_and_hazards.md R195 to R197), and the accesses that have no meaning
(20_memory.md R51, R52; log entries 12, 13, 25, 26, 27). -/

namespace Sys2Proof.Machine

/-- The register offsets (10_state.md R37). -/
abbrev offCmd : Nat := 0x00
abbrev offStatus : Nat := 0x04
abbrev offLen : Nat := 0x08
abbrev offKlen : Nat := 0x0C
abbrev offKey0 : Nat := 0x10
abbrev offKey1 : Nat := 0x14
abbrev offKey2 : Nat := 0x18
abbrev offKey3 : Nat := 0x1C
abbrev offCsum : Nat := 0x20

/-- The decoded extent of `REG` (10_state.md R37): offsets at or above it are outside the engine (R42). -/
abbrev regSpan : Nat := 0x100

/-- The host's read of `STATUS` (30_encoding.md R89). -/
def statusRead : Access := .read .reg offStatus 4

/-- The host address of an access (00_scope.md R15): the base of its space, which is OPEN, plus its offset. -/
def hostAddress : Access → Nat
  | .read .reg off _ => Config.regBase + off
  | .read .buf off _ => Config.bufBase + off
  | .write .reg off _ _ => Config.regBase + off
  | .write .buf off _ _ => Config.bufBase + off

/-- The widths, in bytes, of the `BUF` accesses that have a meaning (20_memory.md R52): a byte. 16 and 32 bits are refused
(93_implementation_defined.md U26), unless the configuration says that the platform offers them, which the default
does not (log 12). -/
def bufWidthDefined (width : Nat) : Bool := width == 1 || (cfg.wideBuf && (width == 2 || width == 4))

/-- Why the model refuses an access, if it does (20_memory.md R51, R52; 10_state.md R42). -/
def accessRefusal : Space → Nat → Nat → Option Refusal
  | .reg, off, width =>
    if width ≠ 4 then some .regAccessNotWord
    else if off % 4 ≠ 0 then some .regAccessMisaligned
    else if regSpan ≤ off then some .outsideReg
    else none
  | .buf, off, width =>
    if bufWidthDefined width = false then some .bufAccessWidth
    else if cfg.bufsz < off + width then some .outsideBuf
    else none

/-- The "host read returns" column of 10_state.md R37; `CMD`, `KEY0..3` and reserved offsets return 0 (R38, R41, R42). -/
def regValue (s : State) (off : Nat) : Word :=
  if off = offStatus then statusWord s.status
  else if off = offLen then s.len
  else if off = offKlen then s.klen
  else if off = offCsum then csumView s
  else 0

/-- The registers whose value a read while busy does not give (70_reset_and_hazards.md R196). -/
def hiddenWhileBusy (off : Nat) : Bool := off == offLen || off == offKlen || off == offCsum

/-- A register read (20_memory.md R55; while busy 70_reset_and_hazards.md R196, R197). -/
def readReg (off : Nat) (s : State) : Word × State :=
  if s.status.busy && hiddenWhileBusy off then drawWord s else (regValue s off, s)

/-- A buffer read of `width` bytes, the lowest offset in the least significant place (20_memory.md R52, R55); while
busy an unspecified value of the right width (70_reset_and_hazards.md R196). -/
def readBufWord (off width : Nat) (s : State) : Word × State :=
  if s.status.busy then
    let d := drawWord s
    (BitVec.ofNat 32 (d.1.toNat % 2 ^ (8 * width)), d.2)
  else (ofLE32 (bufBytes s off width), s)

/-- The "host write" column of 10_state.md R37 (20_memory.md R56), engine idle: stored as written (R39 to R41),
ignored (`STATUS`, `CSUM`, reserved), or a command issued (`CMD`, 30_encoding.md R85). -/
def writeReg (off : Nat) (v : Word) (s : State) : State :=
  if off = offCmd then accept v s
  else if off = offLen then { s with len := v }
  else if off = offKlen then { s with klen := v }
  else if off = offKey0 then { s with key := { s.key with k0 := v } }
  else if off = offKey1 then { s with key := { s.key with k1 := v } }
  else if off = offKey2 then { s with key := { s.key with k2 := v } }
  else if off = offKey3 then { s with key := { s.key with k3 := v } }
  else s

/-- A buffer write of the low `width` bytes of `v`, the least significant at the lowest offset (20_memory.md R52,
R56), engine idle. -/
def writeBufWord (off width : Nat) (v : Word) (s : State) : State := writeBuf s off ((toLE32 v).take width)

/-- A host write that arrives while busy is dropped (70_reset_and_hazards.md R195): `HAZ <- 1` and nothing else. -/
def dropWrite (s : State) : State := { s with status := statusHazard s.status }

/-- A read that has a meaning: the value, and the state after. -/
def readSpace : Space → Nat → Nat → State → Word × State
  | .reg, off, _, s => readReg off s
  | .buf, off, width, s => readBufWord off width s

/-- A write that has a meaning, engine idle. -/
def writeSpace : Space → Nat → Nat → Word → State → State
  | .reg, off, _, v, s => writeReg off v s
  | .buf, off, width, v, s => writeBufWord off width v s

/-- One access of the host: refused, or the value it returns (0 for a write) and the state after. What a read returned
is kept in `readLog` (log 7). -/
def perform (acc : Access) (s : State) : Host.Outcome (Word × State) Fault Refusal :=
  match acc with
  | .read sp off width =>
    match accessRefusal sp off width with
    | some r => .refused r
    | none =>
      let d := readSpace sp off width s
      .next (d.1, { d.2 with readLog := d.1 :: d.2.readLog })
  | .write sp off width v =>
    match accessRefusal sp off width with
    | some r => .refused r
    | none => .next (0, if s.status.busy then dropWrite s else writeSpace sp off width v s)

/-- The state after an access. -/
def hostAccess (acc : Access) (s : State) : Host.Outcome State Fault Refusal :=
  match perform acc s with
  | .next d => .next d.2
  | .fault r => .fault r
  | .refused r => .refused r

end Sys2Proof.Machine
end

