-- ==== Sys2Proof/Machine/Engine.lean ====
section
/-! DEFINITION. The engine's turn and the events a step delivers (10_state.md R20, 30_encoding.md R86,
70_reset_and_hazards.md R190, R191). -/

namespace Sys2Proof.Machine

/-- The *complete* step (30_encoding.md R86): evaluate `decode(PEND)` and the command's rule; a word that is no
command ends with `IllegalCommand` (R78). -/
def completeStep (s : State) : Host.Outcome State Fault Refusal :=
  match decodeWord s.pend with
  | .ok i => exec i s
  | .error _ => .next (raise .illegalCommand s)

/-- A turn of the engine: *complete* is enabled if and only if `BUSY = 1` (10_state.md R20); an idle engine waits for
the next write (R31) and nothing changes (log 2). -/
def engineTurn (s : State) : Host.Outcome State Fault Refusal :=
  if s.status.busy then completeStep s else .next s

/-- A reset delivered by the platform (70_reset_and_hazards.md R190 to R192, 60_exceptions.md R182): the state of
10_state.md R43, every byte of `BUF` unspecified afresh. A command in flight is abandoned (R191). What is outside the
engine, the inputs still to come and the values read, stays (log 16). -/
def platformReset (s : State) : State :=
  { State.reset with inputs := s.inputs, readLog := s.readLog, epoch := s.epoch + 1, draws := s.draws }

/-- What one event does. -/
def deliver (e : Event) (s : State) : Host.Outcome State Fault Refusal :=
  match e with
  | .host acc => hostAccess acc s
  | .engine => engineTurn s
  | .reset => .next (platformReset s)

/-- One step: the next event of `inputs`; with none left it is the engine's turn, so that a pending command
completes (weak fairness, 70_reset_and_hazards.md R199; log 1). -/
def stepOnce (s : State) : Host.Outcome State Fault Refusal :=
  match s.inputs with
  | [] => engineTurn s
  | e :: rest => deliver e { s with inputs := rest }

/-- The command word `w` accepted (30_encoding.md R85), and the engine's turn next. -/
def withCommand (w : Word) (s : State) : State :=
  { accept w s with inputs := .engine :: s.inputs }

end Sys2Proof.Machine
end

