-- ==== Sys2Proof/Machine/Step.lean ====
section
/-! DEFINITION. The one step function, and how a command comes to be the next thing a step runs. -/

namespace Sys2Proof.Machine

/-- One step of the machine (Machine/Engine.lean `stepOnce`). -/
def step (s : State) : Host.Outcome State Fault Refusal := stepOnce s

/-- `s` with the command whose bits are `w` accepted and the engine's turn next (30_encoding.md R85, R86): the engine does
not fetch, it "executes the one command word the host writes to `CMD`" (10_state.md R31). Log entry 3. -/
def State.withFetchWord (s : State) (nbits w : Nat) : State := withCommand (tableWord nbits w) s

end Sys2Proof.Machine
end

