-- ==== Sys2Proof/Machine/Frame.lean ====
section
/-! DEFINITION. The packet codec as functions of bytes (42_codec_sequences.md): the wire frame (R141 to R143), the
`Packet` record (R144 to R146), and what `encode`, `decode` and `is_valid` compute (R148, R149, R152, R154, R157). The
engine does not appear here; the sequences that drive it are in Machine/Codec.lean. Log entries 18, 20, 21. -/

namespace Sys2Proof.Machine

/-- The `flags` record (R144). -/
structure PacketFlags where
  cipherEnabled : Bool
  checksumEnabled : Bool
  /-- "always false" (R144); read by no rule (93_implementation_defined.md U10) -/
  rsaEnabled : Bool
  /-- read by no rule (U10) -/
  protocolVersion : Decimal
deriving DecidableEq, Repr

/-- The `Packet` record (R144), host-side data. -/
structure Packet where
  payload : List Byte
  key : Option (List Byte)
  flags : PacketFlags
deriving DecidableEq, Repr

/-- The default flags (R144); `protocol_version` has no default in the source (log 20). -/
def defaultFlags : PacketFlags :=
  { cipherEnabled := true, checksumEnabled := true, rsaEnabled := false,
    protocolVersion := Config.defaultProtocolVersion }

/-- `new_empty()` (R146). -/
def newEmpty : Packet := { payload := [], key := none, flags := defaultFlags }

/-- `append_payload` (R146). -/
def appendPayload (p : Packet) (s : List Byte) : Packet := { p with payload := p.payload ++ s }

/-- `read_payload` (R146). -/
def readPayload (p : Packet) : List Byte := p.payload

/-- The key of a `finalize` (R147): the packet's own, else the argument. -/
def resolveKey (p : Packet) (arg : Option (List Byte)) : Option (List Byte) := p.key.or arg

/-- `use_cipher` (R147): the key to encipher with, if the cipher is enabled and a key is present. -/
def cipherKey (flags : PacketFlags) (key : Option (List Byte)) : Option (List Byte) :=
  if flags.cipherEnabled then key else none

/-- The largest value of the 16-bit `outer_length` (R141, R149). -/
def maxOuter : Nat := 65535

/-- The largest frame on the wire, `2 + outer_length` bytes (R141). -/
def maxFrame : Nat := maxOuter + 2

/-- `encrypt(key, plaintext)` (41_cipher.md R110, R119, R126), with the configured block cipher. -/
def encryptBytes (k p : List Byte) : Except ErrorKind (List Byte) :=
  if k.length = cfg.keyBytes then .ok (ecbEnc cfg.blockCipher (keyOfBytes k) (padded p)) else .error .invalidKeySize

/-- `decrypt(key, ciphertext)` (41_cipher.md R110, R123, R126, R127). -/
def decryptBytes (k c : List Byte) : Except ErrorKind (List Byte) :=
  if k.length ≠ cfg.keyBytes then .error .invalidKeySize
  else if c.length % 8 ≠ 0 then .error .invalidBlockAlignment
  else .ok (ecbDec cfg.blockCipher (keyOfBytes k) c)

/-- `LE16(len(payload)) ++ payload`, the inner frame before padding (R142). -/
def innerFrame (payload : List Byte) : List Byte := toLE16 payload.length ++ payload

/-- The checksum field of a body (R143), absent when the checksum is disabled (R141). -/
def checksumField (flags : PacketFlags) (body : List Byte) : List Byte :=
  if flags.checksumEnabled then wireChecksum body else []

/-- The outer frame of a body (R141, R148 step 5). -/
def outerFrame (flags : PacketFlags) (body : List Byte) : List Byte :=
  toLE16 ((checksumField flags body).length + body.length) ++ checksumField flags body ++ body

/-- The bytes the checksum field takes (R141). -/
def checksumSize (flags : PacketFlags) : Nat := if flags.checksumEnabled then 4 else 0

/-- `encode` (R148, R149): the key is the resolved one (R147). -/
def encodeFrame (payload : List Byte) (key : Option (List Byte)) (flags : PacketFlags) :
    Except ErrorKind (List Byte) :=
  if cfg.maxPayload < payload.length then .error .payloadTooLarge
  else match cipherKey flags key with
    | some k =>
      if maxOuter < checksumSize flags + pad8 (2 + payload.length) then .error .payloadTooLarge
      else match encryptBytes k (innerFrame payload) with
        | .ok body => .ok (outerFrame flags body)
        | .error e => .error e
    | none =>
      if maxOuter < checksumSize flags + payload.length then .error .payloadTooLarge
      else .ok (outerFrame flags payload)

/-- Where the body starts (R141): after the length, and after the checksum field if there is one. -/
def bodyOffset (flags : PacketFlags) : Nat := 2 + checksumSize flags

/-- The payload of a deciphered inner frame (R152 step 5; a buffer of fewer than 2 bytes: 92_eei_decisions.md D22(b)). -/
def innerPayload (d : List Byte) : Except ErrorKind (List Byte) :=
  if d.length < 2 then .error .payloadLengthOverflow
  else if d.length - 2 < ofLE16 (slice d 0 2) then .error .payloadLengthOverflow
  else .ok (slice d 2 (2 + ofLE16 (slice d 0 2)))

/-- The length comparison (R154): `outer_len + 2 == len(raw)`. -/
def lengthMatches (raw : List Byte) : Bool := ofLE16 (slice raw 0 2) + 2 == raw.length

/-- The checksum comparison (R154): the checksum of the body against bytes `[2:6)`. -/
def checksumMatches (raw : List Byte) : Bool := adler32 (raw.drop 6) == ofLE32 (slice raw 2 6)

/-- The packet that `decode` returns: "this `payload`, `key`, and default flags" (R152 step 6, R153's last line). The
extension R157 replaces steps 4 and 5 only, so this holds whatever flags the caller gave. -/
def decodedPacket (key : Option (List Byte)) (payload : List Byte) : Packet :=
  { payload := payload, key := key, flags := defaultFlags }

/-- `decode` (R152, R157; a frame longer than 65537 bytes: 92_eei_decisions.md D22(e)). With the default flags and a
key it is the document's `decode`; other flags are the spec's extension R157. -/
def decodeFrame (raw : List Byte) (key : Option (List Byte)) (check : Bool) (flags : PacketFlags) :
    Except ErrorKind Packet :=
  if raw.length < bodyOffset flags then .error .frameTooShort
  else if maxFrame < raw.length then .error .lengthMismatch
  else if check && !lengthMatches raw then .error .lengthMismatch
  else if check && flags.checksumEnabled && !checksumMatches raw then .error .checksumMismatch
  else match cipherKey flags key with
    | none => .ok (decodedPacket key (raw.drop (bodyOffset flags)))
    | some k =>
      match decryptBytes k (raw.drop (bodyOffset flags)) with
      | .error e => .error e
      | .ok d =>
        match innerPayload d with
        | .error e => .error e
        | .ok payload => .ok (decodedPacket key payload)

/-- `is_valid` (R154). -/
def isValidFrame (raw : List Byte) : Bool := 6 ≤ raw.length && lengthMatches raw && checksumMatches raw

end Sys2Proof.Machine
end

