-- ==== Sys2Proof/Machine/HostProgram.lean ====
section
/-! DEFINITION. Host programs: the host operations of 30_encoding.md R89 and how a run of them drives the machine.
A host's own control flow stays the host's (R87): a program goes on as a function of the values its reads return. -/

namespace Sys2Proof.Machine

/-- A host program that ends with a value of type `α`. -/
inductive Prog (α : Type) where
  | done (a : α)
  /-- one access; the rest of the program gets the value read (0 for a write) -/
  | access (acc : Access) (rest : Word → Prog α)
  /-- `wait -> st`: poll `STATUS` until `BUSY = 0`; the rest gets that `STATUS` value -/
  | wait (rest : Word → Prog α)

/-- `wait` (R89; 70_reset_and_hazards.md R198): `polls` is how many reads the host makes before the engine takes its
turn, a number the spec leaves open (R207; log 17). The first value with `BUSY = 0` ends it. -/
def waitIdle : Nat → State → Host.Outcome (Word × State) Fault Refusal
  | 0, s =>
    match engineTurn s with
    | .next s' => perform statusRead s'
    | .fault r => .fault r
    | .refused r => .refused r
  | polls + 1, s =>
    match perform statusRead s with
    | .next d => if d.1.getLsbD 0 then waitIdle polls d.2 else .next d
    | .fault r => .fault r
    | .refused r => .refused r

/-- The engine may take its turn just before an access of the host: 0 says that it does not. -/
def turnBefore (turns : Nat) (s : State) : Host.Outcome State Fault Refusal :=
  if turns = 0 then .next s else engineTurn s

/-- A run of a host program: the value it ends with and the state it leaves. When the engine completes is open
(10_state.md R20; 95_test_vectors.md P5, "both orders are behaviours of the model"), and so is the number of polls
(93_implementation_defined.md U31), so a run takes them from a schedule: the n-th entry belongs to the n-th operation of
the program. For an access it says whether the engine takes its turn just before it (0: no), for a `wait` how many reads
the host makes before the engine's turn. Beyond the list every entry is 0 (log 17). -/
def Prog.run {α : Type} : Prog α → List Nat → State → Host.Outcome (α × State) Fault Refusal
  | .done a, _, s => .next (a, s)
  | .access acc rest, sched, s =>
    match turnBefore (sched.headD 0) s with
    | .next s' =>
      match perform acc s' with
      | .next d => (rest d.1).run sched.tail d.2
      | .fault r => .fault r
      | .refused r => .refused r
    | .fault r => .fault r
    | .refused r => .refused r
  | .wait rest, sched, s =>
    match waitIdle (sched.headD 0) s with
    | .next d => (rest d.1).run sched.tail d.2
    | .fault r => .fault r
    | .refused r => .refused r

/-- `wr NAME, v` (R89), the register by its offset. -/
def wr {α : Type} (off : Nat) (v : Word) (p : Prog α) : Prog α := .access (.write .reg off 4 v) fun _ => p

/-- `rd NAME -> x` (R89). -/
def rd {α : Type} (off : Nat) (p : Word → Prog α) : Prog α := .access (.read .reg off 4) p

/-- `wb i, v` (R89). -/
def wb {α : Type} (i : Nat) (v : Byte) (p : Prog α) : Prog α :=
  .access (.write .buf i 1 (v.setWidth 32)) fun _ => p

/-- `wbs i, s` (R89): ascending order. -/
def wbs {α : Type} : Nat → List Byte → Prog α → Prog α
  | _, [], p => p
  | i, v :: s, p => wb i v (wbs (i + 1) s p)

/-- `rb i -> x` (R89). -/
def rb {α : Type} (i : Nat) (p : Byte → Prog α) : Prog α := .access (.read .buf i 1) fun w => p (w.setWidth 8)

/-- `rbs i, n -> s` (R89). -/
def rbs {α : Type} : Nat → Nat → (List Byte → Prog α) → Prog α
  | _, 0, p => p []
  | i, n + 1, p => rb i fun v => rbs (i + 1) n fun s => p (v :: s)

/-- `cmd M` (R88): a write of the command word to `CMD`. -/
def cmd {α : Type} (i : Instr) (p : Prog α) : Prog α := wr offCmd (encode i) p

/-- `key k` (R89), the pseudo-instruction that loads a 16-byte key. -/
def loadKey16 {α : Type} (k : List Byte) (p : Prog α) : Prog α :=
  wr offKey0 (keyOfBytes k).k0 (wr offKey1 (keyOfBytes k).k1 (wr offKey2 (keyOfBytes k).k2
    (wr offKey3 (keyOfBytes k).k3 (wr offKlen 16 p))))

/-- The length of a key as the 32-bit value of `KLEN`. A length that does not fit is not truncated (92_eei_decisions.md
D21: "a truncating `KLEN` could turn a wrong length into 16"): it becomes the largest value (log 19). -/
def keyLengthWord (k : List Byte) : Word := BitVec.ofNat 32 (min k.length (2 ^ 32 - 1))

/-- How a codec sequence loads a key of any length (42_codec_sequences.md R147, R151, R153): `key k` for 16 bytes,
otherwise its length in `KLEN`, and `ENC` or `DEC` will raise. -/
def loadKey {α : Type} (k : List Byte) (p : Prog α) : Prog α :=
  if k.length = 16 then loadKey16 k p else wr offKlen (keyLengthWord k) p

/-- The error a `STATUS` value carries (42_codec_sequences.md R151 "error named by `st[7:4]`"), if `st[2] = 1`. A code
that names no kind never occurs (60_exceptions.md R166) and counts as `IllegalCommand` here (log 22). -/
def statusError (st : Word) : Option ErrorKind :=
  if st.getLsbD 2 then some ((errorOfCode (st.extractLsb' 4 4)).getD .illegalCommand) else none

end Sys2Proof.Machine
end

