-- ==== Sys2Proof/Machine/Codec.lean ====
section
/-! DEFINITION. The pseudo-instructions `ENCODE`, `DECODE` and `ISVALID` (30_encoding.md R90) as their expansions into
host operations and engine commands (42_codec_sequences.md R151, R153, R155, R157), and the packet's operations that
use them (R146). Log entries 17 to 19. -/

namespace Sys2Proof.Machine

/-- `wbs 0, s; wr LEN, len(s)`: the operand of the next command. -/
def loadData {α : Type} (s : List Byte) (p : Prog α) : Prog α := wbs 0 s (wr offLen (BitVec.ofNat 32 s.length) p)

/-- `rd LEN -> m; rbs 0, m -> body`. -/
def readData {α : Type} (p : List Byte → Prog α) : Prog α := rd offLen fun m => rbs 0 m.toNat p

/-- `cmd CSUM; wait -> st; rd CSUM -> c`. -/
def checksumData {α : Type} (p : Word → Prog α) : Prog α := cmd .csum (.wait fun _ => rd offCsum p)

/-- The last lines of R151: the checksum over the body now in `BUF[0:LEN)`, unless it is disabled, and the frame. -/
def sealFrame (flags : PacketFlags) : Prog (Except ErrorKind (List Byte)) :=
  if flags.checksumEnabled then
    checksumData fun c => readData fun body => .done (.ok (toLE16 (4 + body.length) ++ toLE32 c ++ body))
  else readData fun body => .done (.ok (toLE16 body.length ++ body))

/-- `if st[2] = 1: raise (error named by st[7:4])` (R151, R153). -/
def orRaise {α : Type} (st : Word) (p : Prog (Except ErrorKind α)) : Prog (Except ErrorKind α) :=
  match statusError st with
  | some e => .done (.error e)
  | none => p

/-- `ENCODE` (R151 and its variants; the key is the resolved one, R147). -/
def encodeProgram (payload : List Byte) (key : Option (List Byte)) (flags : PacketFlags) :
    Prog (Except ErrorKind (List Byte)) :=
  if cfg.maxPayload < payload.length then .done (.error .payloadTooLarge)
  else match cipherKey flags key with
    | some k =>
      if maxOuter < checksumSize flags + pad8 (2 + payload.length) then .done (.error .payloadTooLarge)
      else loadKey k (loadData (innerFrame payload) (cmd .enc (.wait fun st => orRaise st (sealFrame flags))))
    | none =>
      if maxOuter < checksumSize flags + payload.length then .done (.error .payloadTooLarge)
      else if flags.checksumEnabled then loadData payload (sealFrame flags)
      else .done (.ok (toLE16 payload.length ++ payload))

/-- The last lines of R153: the payload out of the `m` deciphered bytes in `BUF[0:LEN)`. -/
def takePayload (m : Nat) (packet : List Byte → Packet) : Prog (Except ErrorKind Packet) :=
  if m < 2 then .done (.error .payloadLengthOverflow)
  else rbs 0 2 fun l =>
    if m - 2 < ofLE16 l then .done (.error .payloadLengthOverflow)
    else rbs 2 (ofLE16 l) fun payload => .done (.ok (packet payload))

/-- The lines of R153 from `key key` to the end, for a body of `m` bytes already in `BUF[0:LEN)`. -/
def decipherBody (k : List Byte) (m : Nat) (packet : List Byte → Packet) : Prog (Except ErrorKind Packet) :=
  loadKey k (cmd .dec (.wait fun st => orRaise st (takePayload m packet)))

/-- What `DECODE` does with a body that passed its checks: R153's cipher part, or the body as it is (R157). -/
def decodeBody (flags : PacketFlags) (key : Option (List Byte)) (body : List Byte) : Prog (Except ErrorKind Packet) :=
  match cipherKey flags key with
  | some k => decipherBody k body.length (decodedPacket key)
  | none => .done (.ok (decodedPacket key body))

/-- R153's comparison of the checksum the engine computed with the received one, then the rest. -/
def orMismatch (raw : List Byte) (p : Prog (Except ErrorKind Packet)) (c : Word) : Prog (Except ErrorKind Packet) :=
  if c ≠ ofLE32 (slice raw 2 6) then .done (.error .checksumMismatch) else p

/-- `DECODE` (R153), with the flags of the extension R157 (log 18). The engine is not used when neither the checksum
nor the cipher is. -/
def decodeProgram (raw : List Byte) (key : Option (List Byte)) (check : Bool) (flags : PacketFlags) :
    Prog (Except ErrorKind Packet) :=
  if raw.length < bodyOffset flags then .done (.error .frameTooShort)
  else if maxFrame < raw.length then .done (.error .lengthMismatch)
  else if check && !lengthMatches raw then .done (.error .lengthMismatch)
  else if check && flags.checksumEnabled then
    loadData (raw.drop (bodyOffset flags))
      (checksumData (orMismatch raw (decodeBody flags key (raw.drop (bodyOffset flags)))))
  else if (cipherKey flags key).isSome then
    loadData (raw.drop (bodyOffset flags)) (decodeBody flags key (raw.drop (bodyOffset flags)))
  else decodeBody flags key (raw.drop (bodyOffset flags))

/-- `ISVALID` (R155). -/
def isValidProgram (raw : List Byte) : Prog Bool :=
  if raw.length < 6 ∨ maxFrame < raw.length then .done false
  else loadData (raw.drop 6) (checksumData fun c =>
    .done (c == ofLE32 (slice raw 2 6) && lengthMatches raw))

/-- `finalize(Packet, key?)` (R146): `ENCODE` with the resolved key. -/
def finalizeProgram (p : Packet) (arg : Option (List Byte)) : Prog (Except ErrorKind (List Byte)) :=
  encodeProgram p.payload (resolveKey p arg) p.flags

/-- The document's `decode(raw_bytes, key)` with the caller's choice of `check` (R146, R152, R156): default flags. -/
def decodePacketProgram (raw k : List Byte) (check : Bool) : Prog (Except ErrorKind Packet) :=
  decodeProgram raw (some k) check defaultFlags

end Sys2Proof.Machine
end

