-- ==== Sys2Proof/Safety.lean ====
section
/-! DEFINITION. What counts as a good state and a good run, in the terms the claims use (10_state.md R44;
70_reset_and_hazards.md R198, R206). -/

namespace Sys2Proof.Machine

/-- The state invariants of 10_state.md R44 (i) to (v), the canonical form of the buffer, and its extent (R27). Part
(vi), that `HAZ` is sticky, is a property of steps. -/
structure Inv (s : State) : Prop where
  /-- R44 (i) -/
  a_lt : s.a.toNat < cfg.adlerMod
  b_lt : s.b.toNat < cfg.adlerMod
  /-- R44 (ii) -/
  not_busy_done : ¬ (s.status.busy = true ∧ s.status.done = true)
  /-- R44 (iii) -/
  err_done : s.status.err = true → s.status.done = true
  /-- R44 (iv) -/
  errcode_iff : s.status.errcode = 0 ↔ s.status.err = false
  /-- R44 (v) -/
  errcode_mem : s.status.errcode = 0 ∨ s.status.errcode = 4 ∨ s.status.errcode = 5 ∨ s.status.errcode = 8
    ∨ s.status.errcode = 9
  /-- the buffer's canonical form (Machine/State.lean) -/
  buf_wf : Memory.wf s.buf
  /-- nothing is ever written at or beyond `BUFSZ` (R27, 20_memory.md R53) -/
  buf_extent : ∀ c ∈ s.buf, c.1 < cfg.bufsz

/-- A run of `n` steps, which stops at the first refusal. -/
def steps : Nat → State → Host.Outcome State Fault Refusal
  | 0, s => .next s
  | n + 1, s =>
    match step s with
    | .next t => steps n t
    | .fault r => .fault r
    | .refused r => .refused r

/-- "A final state is one with `BUSY = 0`" (R206). -/
def Final (s : State) : Prop := s.status.busy = false

/-- The host has no access left to make. -/
def hostDone (s : State) : Bool :=
  s.inputs.all fun e =>
    match e with
    | .host _ => false
    | .engine => true
    | .reset => true

/-- A run "is over when the host has made its last access and `BUSY = 0`" (R206). -/
def RunOver (s : State) : Prop := hostDone s = true ∧ Final s

/-- The wait rule (R198): "After writing `CMD` the host must read `STATUS` until it sees `BUSY = 0` before it makes any
other access." `waiting` says that the host has written `CMD` and has not yet read a `STATUS` with `BUSY = 0`. The next
step breaks the rule if it is, while waiting, a host access other than a read of `STATUS`. -/
def breaksWaitRule (waiting : Bool) (s : State) : Bool :=
  match s.inputs with
  | .host acc :: _ => waiting && acc != statusRead
  | _ => false

/-- Whether the host is waiting after the next step: a write to `CMD` starts it, also a dropped one, and a read of
`STATUS` that sees `BUSY = 0` ends it. The engine's turn does not end it: the host has not seen it. Nor does a platform
reset, of which R198 does not speak: that the host must still read `STATUS` after one is the model's choice (DESIGN
CHOICE, log 30). -/
def waitingAfter (waiting : Bool) (s : State) : Bool :=
  match s.inputs with
  | .host (.write .reg off _ _) :: _ => waiting || off == offCmd
  | .host acc :: _ => waiting && !(acc == statusRead && !s.status.busy)
  | _ => waiting

/-- In the first `n` steps from `s` no access breaks the wait rule (R198). -/
def obeysWaitRule : Nat → Bool → State → Bool
  | 0, _, _ => true
  | n + 1, waiting, s => !breaksWaitRule waiting s &&
    match step s with
    | .next t => obeysWaitRule n (waitingAfter waiting s) t
    | .fault _ => true
    | .refused _ => true

/-- The next step is a write to `CMD` that will be accepted (30_encoding.md R85). -/
def issuesCommand (s : State) : Bool :=
  match s.inputs with
  | .host (.write .reg off 4 _) :: _ => off == offCmd && !s.status.busy
  | _ => false

/-- The next step is a read of `STATUS` that sees a completed command. -/
def readsCompletion (s : State) : Bool :=
  match s.inputs with
  | .host acc :: _ => acc == statusRead && !s.status.busy
  | _ => false

/-- The next step completes a command. -/
def completesCommand (s : State) : Bool :=
  match s.inputs with
  | [] => s.status.busy
  | .engine :: _ => s.status.busy
  | _ => false

/-- In the first `n` steps from `s`, "each command's `ERR` was read by the host before the next command was issued"
(R206); `unread` says that a command has completed whose `STATUS` the host has not read. R206 says nothing about a run
with a platform reset in it: that a reset leaves `unread` as it is, is the model's choice (DESIGN CHOICE, log 31). -/
def readsEveryError : Nat → Bool → State → Bool
  | 0, _, _ => true
  | n + 1, unread, s => !(issuesCommand s && unread) &&
    match step s with
    | .next t => readsEveryError n ((unread || completesCommand s) && !readsCompletion s) t
    | .fault _ => true
    | .refused _ => true

/-- "Nothing went wrong" in a run of `n` steps from `s` to `t` (R206). R206 says nothing about a run with a platform
reset in it; judging such a run too, by the `HAZ` it ends with, is the model's choice (DESIGN CHOICE, log 31). -/
def NothingWentWrong (n : Nat) (s t : State) : Prop :=
  steps n s = .next t ∧ RunOver t ∧ t.status.haz = false ∧ readsEveryError n false s = true

end Sys2Proof.Machine
end

