-- ==== Sys2Proof/Certificates/Slice0/Obligations.lean ====
section
/-! DEFINITION. The statements for the provers. Each docstring names the rule of spec/ it formalises, or says what it
is derived from. The free values (`Config.unwrittenByte`, `Config.unspecifiedRead`, `Config.undefinedLE16`) stand in the
statements as they are, so each statement holds whatever those values are. -/

open Sys2Proof Sys2Proof.Machine

/-! ## Encoding -/

/-- R77 (words of R76): a word decodes to a command exactly when it is that command's word; every other is rejected.
-/
def Obligations.DecoderAcceptsExactlyTheSixWords : Prop :=
  ∀ (w : Word) (i : Instr), decodeWord w = .ok i ↔
    (w, i) ∈ [((1 : Word), Instr.csinit), (2, .csupd), (3, .csum), (4, .enc), (5, .dec), (6, .keyclr)]

/-- Decode and encode agree on byte sequences of any length: every instruction's bytes decode to it, and nothing else
decodes to it. Derived from R75 to R80 and R57. -/
def Obligations.DecodeAndEncodeAgreeOnBytes : Prop :=
  (∀ i : Instr, i.wellFormed = true → decodeBytes (encodeBytes i) = .ok i) ∧
  (∀ (bs : List Byte) (i : Instr), decodeBytes bs = .ok i → bs = encodeBytes i)

/-- Sanity: words of the opcode table as it writes them, and the illegal words of vectors V5.2 to V5.5. -/
def Obligations.TableWordsDecodeAsTheTableSays : Prop :=
  decodeTableWord 32 0x00000001 = some .csinit ∧ decodeTableWord 32 0x00000002 = some .csupd ∧
  decodeTableWord 32 0x00000003 = some .csum ∧ decodeTableWord 32 0x00000004 = some .enc ∧
  decodeTableWord 32 0x00000005 = some .dec ∧ decodeTableWord 32 0x00000006 = some .keyclr ∧
  decodeTableWord 32 0x00000000 = none ∧ decodeTableWord 32 0x00000007 = none ∧
  decodeTableWord 32 0x00000104 = none ∧ decodeTableWord 32 0x80000003 = none ∧
  decodeTableWord 32 0xFFFFFFFF = none ∧ decodeTableWord 32 0x000000FF = none

/-! ## The step, issue and completion -/

/-- When a command is pending and its word decodes, the engine's turn runs exactly that command: with no input left,
and with an engine turn at the head of the inputs, which is used up. Derived from R20, R86; that the inputs say whose
turn it is, is the model's choice (log entry 1). -/
def Obligations.StepRunsThePendingCommand : Prop :=
  ∀ (s : State) (i : Instr), s.status.busy = true → decodeWord s.pend = .ok i →
    (s.inputs = [] → step s = exec i s) ∧
    (∀ rest, s.inputs = .engine :: rest → step s = exec i { s with inputs := rest })

/-- A command placed by `withFetchWord` is what the very next step runs, on the state that accepting it gives (R85).
Derived from R85, R86; the placing itself is the model's (log entry 3). -/
def Obligations.PlacedCommandRunsNext : Prop :=
  ∀ (s : State) (w : Nat) (i : Instr), decodeTableWord 32 w = some i →
    step (s.withFetchWord 32 w) = exec i
      { s with
        pend := BitVec.ofNat 32 w
        status := { s.status with busy := true, done := false, err := false, errcode := 0 } }

/-- R85: a write to `CMD` while idle is accepted for every word; while busy it is dropped (R195). -/
def Obligations.CommandWriteIsAcceptedWhileIdle : Prop :=
  ∀ (s : State) (w : Word),
    (s.status.busy = false → hostAccess (.write .reg 0x00 4 w) s = .next
      { s with
        pend := w
        status := { s.status with busy := true, done := false, err := false, errcode := 0 } }) ∧
    (s.status.busy = true → hostAccess (.write .reg 0x00 4 w) s = .next
      { s with status := { s.status with haz := true } })

/-- R78: a word that is none of the six, written to `CMD` while idle, is accepted and completes with `IllegalCommand`,
changing nothing else but the hidden latch. -/
def Obligations.IllegalWordCompletesWithIllegalCommand : Prop :=
  ∀ (s : State) (w : Word) (rest : List Event), w ∉ [(1 : Word), 2, 3, 4, 5, 6] → s.status.busy = false →
    s.inputs = .host (.write .reg 0x00 4 w) :: .engine :: rest →
    steps 2 s = .next
      { s with
        pend := w
        inputs := rest
        status := { s.status with busy := false, done := true, err := true, errcode := 8 } }

/-- R86, R199: every command completes, from every state, with `BUSY` clear and `DONE` set, and `HAZ` as it was. -/
def Obligations.EveryCommandCompletes : Prop :=
  ∀ (i : Instr) (s : State), ∃ t, exec i s = .next t ∧ t.status.busy = false ∧ t.status.done = true ∧
    t.status.haz = s.status.haz ∧ (t.status.err = false → t.status.errcode = 0)

/-- R199: no step faults, and a step is refused only for a host access that has no meaning. -/
def Obligations.OnlyUndefinedAccessesStop : Prop :=
  ∀ s : State, (∃ t, step s = .next t) ∨
    ∃ rest r, step s = .refused r ∧
      ((∃ sp off width, s.inputs = .host (.read sp off width) :: rest ∧ accessRefusal sp off width = some r) ∨
       (∃ sp off width v, s.inputs = .host (.write sp off width v) :: rest ∧ accessRefusal sp off width = some r))

/-! ## The commands -/

/-- R97: `CSINIT`, its whole effect and its frame, from every state; doing it again changes nothing. -/
def Obligations.CsinitStartsAChecksum : Prop :=
  ∀ s : State, ∃ t, exec .csinit s = .next t ∧
    t = { s with
      a := 1
      b := 0
      status := { s.status with busy := false, done := true, err := false, errcode := 0 } } ∧
    exec .csinit t = .next t

/-- R98: `CSUPD`, its result, its frame and its one error. -/
def Obligations.CsupdContinuesTheChecksum : Prop :=
  ∀ s : State,
    (s.len.toNat ≤ 65544 →
      exec .csupd s = .next
        { s with
          a := BitVec.ofNat 16 ((List.range s.len.toNat).foldl (fun p i =>
            ((p.1 + (bufByte s i).toNat) % 65521, (p.2 + (p.1 + (bufByte s i).toNat) % 65521) % 65521))
            (s.a.toNat, s.b.toNat)).1
          b := BitVec.ofNat 16 ((List.range s.len.toNat).foldl (fun p i =>
            ((p.1 + (bufByte s i).toNat) % 65521, (p.2 + (p.1 + (bufByte s i).toNat) % 65521) % 65521))
            (s.a.toNat, s.b.toNat)).2
          status := { s.status with busy := false, done := true, err := false, errcode := 0 } }) ∧
    (65544 < s.len.toNat → exec .csupd s = .next
      { s with status := { s.status with busy := false, done := true, err := true, errcode := 9 } })

/-- R99: `CSUM`, its result from the initial accumulators, its frame and its one error; and that on a length that fits
it equals `CSINIT` followed by `CSUPD`. -/
def Obligations.CsumIsTheOneShotChecksum : Prop :=
  ∀ s : State,
    (s.len.toNat ≤ 65544 →
      exec .csum s = .next
        { s with
          a := BitVec.ofNat 16 ((List.range s.len.toNat).foldl (fun p i =>
            ((p.1 + (bufByte s i).toNat) % 65521, (p.2 + (p.1 + (bufByte s i).toNat) % 65521) % 65521)) (1, 0)).1
          b := BitVec.ofNat 16 ((List.range s.len.toNat).foldl (fun p i =>
            ((p.1 + (bufByte s i).toNat) % 65521, (p.2 + (p.1 + (bufByte s i).toNat) % 65521) % 65521)) (1, 0)).2
          status := { s.status with busy := false, done := true, err := false, errcode := 0 } } ∧
      ∃ t u, exec .csinit s = .next t ∧ exec .csupd t = .next u ∧ exec .csum s = .next u) ∧
    (65544 < s.len.toNat → exec .csum s = .next
      { s with status := { s.status with busy := false, done := true, err := true, errcode := 9 } })

/-- R121: `ENC`. Where it executes, every block of the padded operand becomes its `BLK_ENC`, `LEN` becomes
`pad8(LEN)`, every byte from `pad8(LEN)` on and every other register is unchanged; and its two errors, in their
order. -/
def Obligations.EncEnciphersThePaddedOperand : Prop :=
  ∀ s : State,
    (s.len.toNat ≤ 65544 → s.klen = 16 →
      ∃ t, exec .enc s = .next t ∧
        t = { s with
          buf := t.buf
          len := BitVec.ofNat 32 (pad8 s.len.toNat)
          status := { s.status with busy := false, done := true, err := false, errcode := 0 } } ∧
        t.len.toNat = pad8 s.len.toNat ∧
        (∀ i, pad8 s.len.toNat ≤ i → bufByte t i = bufByte s i) ∧
        (∀ j, 8 * j < pad8 s.len.toNat →
          let p := fun i => if i < s.len.toNat then bufByte s i else 0
          let v := cfg.blockCipher.enc s.key
            (ofLE32 [p (8 * j), p (8 * j + 1), p (8 * j + 2), p (8 * j + 3)],
             ofLE32 [p (8 * j + 4), p (8 * j + 5), p (8 * j + 6), p (8 * j + 7)])
          bufBytes t (8 * j) 8 = toLE32 v.1 ++ toLE32 v.2)) ∧
    (65544 < s.len.toNat → exec .enc s = .next
      { s with status := { s.status with busy := false, done := true, err := true, errcode := 9 } }) ∧
    (s.len.toNat ≤ 65544 → s.klen ≠ 16 → exec .enc s = .next
      { s with status := { s.status with busy := false, done := true, err := true, errcode := 4 } })

/-- R122: `DEC`. Where it executes, every block becomes its `BLK_DEC`; `LEN`, every byte from `LEN` on and every other
register is unchanged; and its three errors, in their order. -/
def Obligations.DecDeciphersTheOperand : Prop :=
  ∀ s : State,
    (s.len.toNat ≤ 65544 → s.klen = 16 → s.len.toNat % 8 = 0 →
      ∃ t, exec .dec s = .next t ∧
        t = { s with
          buf := t.buf
          status := { s.status with busy := false, done := true, err := false, errcode := 0 } } ∧
        (∀ i, s.len.toNat ≤ i → bufByte t i = bufByte s i) ∧
        (∀ j, 8 * j < s.len.toNat →
          let v := cfg.blockCipher.dec s.key
            (ofLE32 [bufByte s (8 * j), bufByte s (8 * j + 1), bufByte s (8 * j + 2), bufByte s (8 * j + 3)],
             ofLE32 [bufByte s (8 * j + 4), bufByte s (8 * j + 5), bufByte s (8 * j + 6), bufByte s (8 * j + 7)])
          bufBytes t (8 * j) 8 = toLE32 v.1 ++ toLE32 v.2)) ∧
    (65544 < s.len.toNat → exec .dec s = .next
      { s with status := { s.status with busy := false, done := true, err := true, errcode := 9 } }) ∧
    (s.len.toNat ≤ 65544 → s.klen ≠ 16 → exec .dec s = .next
      { s with status := { s.status with busy := false, done := true, err := true, errcode := 4 } }) ∧
    (s.len.toNat ≤ 65544 → s.klen = 16 → s.len.toNat % 8 ≠ 0 → exec .dec s = .next
      { s with status := { s.status with busy := false, done := true, err := true, errcode := 5 } })

/-- R124: `KEYCLR`, its whole effect and its frame, from every state; doing it again changes nothing. It leaves
`KLEN = 0`, and as long as `KLEN` is not 16, `ENC` and `DEC` raise `InvalidKeySize` (on an operand that fits the
buffer; R170 puts the range check first). -/
def Obligations.KeyclrErasesTheKey : Prop :=
  (∀ s : State, ∃ t, exec .keyclr s = .next t ∧
    t = { s with
      key := { k0 := 0, k1 := 0, k2 := 0, k3 := 0 }
      klen := 0
      status := { s.status with busy := false, done := true, err := false, errcode := 0 } } ∧
    exec .keyclr t = .next t) ∧
  (∀ u : State, u.klen ≠ 16 → u.len.toNat ≤ 65544 →
    exec .enc u = .next
      { u with status := { u.status with busy := false, done := true, err := true, errcode := 4 } } ∧
    exec .dec u = .next
      { u with status := { u.status with busy := false, done := true, err := true, errcode := 4 } })

/-! ## Errors -/

/-- R166, R170: which error each command reports, in the fixed order, and that `STATUS` alone changes (R171).
`IllegalCommand` comes first: a pending word that does not decode reports it whatever the operands. -/
def Obligations.ErrorsAreReportedInPriorityOrder : Prop :=
  ∀ s : State,
    (∀ r, decodeWord s.pend = .error r → completeStep s = .next
      { s with status := { s.status with busy := false, done := true, err := true, errcode := 8 } }) ∧
    (65544 < s.len.toNat → ∀ i ∈ [Instr.csupd, .csum, .enc, .dec], exec i s = .next
      { s with status := { s.status with busy := false, done := true, err := true, errcode := 9 } }) ∧
    (s.len.toNat ≤ 65544 → s.klen ≠ 16 → ∀ i ∈ [Instr.enc, .dec], exec i s = .next
      { s with status := { s.status with busy := false, done := true, err := true, errcode := 4 } }) ∧
    (s.len.toNat ≤ 65544 → s.klen = 16 → s.len.toNat % 8 ≠ 0 → exec .dec s = .next
      { s with status := { s.status with busy := false, done := true, err := true, errcode := 5 } })

/-- R171 and its consequence R172 (the spec's own inference): a command that ends with an error changes nothing but
`STATUS`, and the code is one of 4, 5, 9. -/
def Obligations.AnErrorChangesOnlyStatus : Prop :=
  ∀ (i : Instr) (s t : State), exec i s = .next t → t.status.err = true →
    t = { s with
      status := { s.status with busy := false, done := true, err := true, errcode := t.status.errcode } } ∧
    (t.status.errcode = 4 ∨ t.status.errcode = 5 ∨ t.status.errcode = 9)

/-- R173: accepting the same command again after an error clears the error, and it ends with the same error. -/
def Obligations.ReissuedCommandGivesTheSameError : Prop :=
  ∀ (i : Instr) (s t : State), exec i s = .next t → t.status.err = true →
    ∃ u v, hostAccess (.write .reg 0x00 4 (encode i)) t = .next u ∧ u.status.err = false ∧ u.status.errcode = 0 ∧
      completeStep u = .next v ∧ v.status = t.status

/-! ## Frames over all commands -/

/-- R200, R203, R27 and R202 (the spec's own inference, "derived: from 40_checksum.md rules R97 to R99"): which
command may change which register or the buffer; `HAZ`, `PEND` and the host's side are never changed by a command.
-/
def Obligations.EachRegisterChangesOnlyByItsCommands : Prop :=
  ∀ (i : Instr) (s t : State), exec i s = .next t →
    (i ≠ .csinit → i ≠ .csupd → i ≠ .csum → t.a = s.a ∧ t.b = s.b) ∧
    (i ≠ .keyclr → t.key = s.key ∧ t.klen = s.klen) ∧
    (i ≠ .enc → t.len = s.len) ∧
    (i ≠ .enc → i ≠ .dec → t.buf = s.buf) ∧
    t.status.haz = s.status.haz ∧ t.pend = s.pend ∧ t.inputs = s.inputs ∧ t.readLog = s.readLog ∧
    t.epoch = s.epoch ∧ t.draws = s.draws

/-! ## Invariants -/

/-- 10_state.md section 11, the invariants (i) to (v) (R44, the spec's own inference: "derived: from rules R28, R43,
30_encoding.md rules R85, R86, 60_exceptions.md rule R166"), with the buffer's canonical form and extent (the
model's): kept by every step from every state that has it. -/
def Obligations.EveryStepKeepsTheInvariant : Prop :=
  ∀ s t : State, Inv s → step s = .next t → Inv t

/-- The invariant holds right after reset (R44, the spec's own inference, as above). -/
def Obligations.ResetMeetsTheInvariant : Prop := Inv State.reset

/-- R28 "sticky ... cleared by reset only" (and R44 (vi), the spec's own inference): `HAZ`, once 1, stays 1 until a
reset. -/
def Obligations.HazardIsStickyUntilReset : Prop :=
  ∀ s t : State, step s = .next t → s.status.haz = true → s.inputs.head? ≠ some .reset → t.status.haz = true

/-! ## Reset -/

/-- R43: the register values after reset; no byte of the buffer has a value of its own. That each byte then reads as
the free value of its offset and of reset number 0 is the model's choice (log entry 4) of the two that R43 gives, a draw
or a fault. -/
def Obligations.ResetValues : Prop :=
  State.reset.key = { k0 := 0, k1 := 0, k2 := 0, k3 := 0 } ∧ State.reset.klen = 0 ∧ State.reset.len = 0 ∧
  State.reset.a = 1 ∧ State.reset.b = 0 ∧ csumView State.reset = 0x00000001 ∧
  statusWord State.reset.status = 0 ∧
  State.reset.status = { busy := false, done := false, err := false, haz := false, errcode := 0 } ∧
  (∀ i, Memory.lookup State.reset.buf i = none ∧ bufByte State.reset i = Config.unwrittenByte 0 i)

/-- R190, R191, R192: a reset, from every state and also while busy, leaves exactly the register values of R43, and
every byte of the buffer unspecified anew. (Inputs, values read and the counters are the model's own, log entry 16.)
-/
def Obligations.ResetEventRestoresTheResetState : Prop :=
  ∀ (s : State) (rest : List Event), s.inputs = .reset :: rest →
    ∃ t, step s = .next t ∧ t.key = { k0 := 0, k1 := 0, k2 := 0, k3 := 0 } ∧ t.klen = 0 ∧ t.len = 0 ∧
      t.a = 1 ∧ t.b = 0 ∧
      t.status = { busy := false, done := false, err := false, haz := false, errcode := 0 } ∧
      (∀ i, bufByte t i = Config.unwrittenByte (s.epoch + 1) i) ∧ t.inputs = rest ∧ t.readLog = s.readLog

/-! ## The host port -/

/-- R28: the `STATUS` register as a number; bits 31:8 are 0. -/
def Obligations.StatusRegisterLayout : Prop :=
  ∀ st : Status, (statusWord st).toNat =
    st.busy.toNat + 2 * st.done.toNat + 4 * st.err.toNat + 8 * st.haz.toNat + 16 * st.errcode.toNat

/-- R26: the `CSUM` view. -/
def Obligations.CsumRegisterIsTheAccumulators : Prop :=
  ∀ s : State, (csumView s).toNat = s.b.toNat * 65536 + s.a.toNat

/-- R37, R55: what a register read returns while idle; no read changes the engine. -/
def Obligations.RegisterReadsWhileIdle : Prop :=
  ∀ s : State, s.status.busy = false →
    let reads := fun (off : Nat) (v : Word) =>
      perform (.read .reg off 4) s = .next (v, { s with readLog := v :: s.readLog })
    reads 0x00 0 ∧ reads 0x04 (statusWord s.status) ∧ reads 0x08 s.len ∧ reads 0x0C s.klen ∧
    reads 0x10 0 ∧ reads 0x14 0 ∧ reads 0x18 0 ∧ reads 0x1C 0 ∧ reads 0x20 (csumView s) ∧
    (∀ off, 0x24 ≤ off → off < 0x100 → off % 4 = 0 → reads off 0)

/-- R37, R56 (and R39 to R42): what a register write does while idle, `CMD` apart (R85). -/
def Obligations.RegisterWritesWhileIdle : Prop :=
  ∀ (s : State) (v : Word), s.status.busy = false →
    hostAccess (.write .reg 0x04 4 v) s = .next s ∧
    hostAccess (.write .reg 0x08 4 v) s = .next { s with len := v } ∧
    hostAccess (.write .reg 0x0C 4 v) s = .next { s with klen := v } ∧
    hostAccess (.write .reg 0x10 4 v) s = .next { s with key := { s.key with k0 := v } } ∧
    hostAccess (.write .reg 0x14 4 v) s = .next { s with key := { s.key with k1 := v } } ∧
    hostAccess (.write .reg 0x18 4 v) s = .next { s with key := { s.key with k2 := v } } ∧
    hostAccess (.write .reg 0x1C 4 v) s = .next { s with key := { s.key with k3 := v } } ∧
    hostAccess (.write .reg 0x20 4 v) s = .next s ∧
    (∀ off, 0x24 ≤ off → off < 0x100 → off % 4 = 0 → hostAccess (.write .reg off 4 v) s = .next s)

/-- R195: every write with a meaning (R51, R52; for the others see log entry 27) that arrives while busy is dropped and
sets `HAZ`, and nothing else happens. -/
def Obligations.WritesWhileBusyAreDropped : Prop :=
  ∀ (s : State) (sp : Space) (off width : Nat) (v : Word), s.status.busy = true →
    accessRefusal sp off width = none →
    hostAccess (.write sp off width v) s = .next { s with status := { s.status with haz := true } }

/-- R196, R197: reads while busy. `CMD`, `KEY0..3` and reserved offsets read 0; a read of `LEN`, `KLEN`, `CSUM` or a
buffer byte returns an unspecified value of its width; `STATUS` is current, which in a state with the invariant is
`BUSY = 1`, the current `HAZ` and 0 elsewhere. None changes the engine. That the unspecified value is the free value of a
counter that advances is the model's choice (log entry 5), and so is the zero extension of a byte (log entry 25). -/
def Obligations.ReadsWhileBusy : Prop :=
  ∀ s : State, s.status.busy = true →
    (perform (.read .reg 0x04 4) s =
      .next (statusWord s.status, { s with readLog := statusWord s.status :: s.readLog })) ∧
    (Inv s → statusWord s.status = if s.status.haz then 0x09 else 0x01) ∧
    (∀ off, off < 0x100 → off % 4 = 0 → off ≠ 0x04 → off ≠ 0x08 → off ≠ 0x0C → off ≠ 0x20 →
      perform (.read .reg off 4) s = .next (0, { s with readLog := 0 :: s.readLog })) ∧
    (∀ off ∈ [0x08, 0x0C, 0x20], perform (.read .reg off 4) s =
      .next (Config.unspecifiedRead s.draws,
        { s with readLog := Config.unspecifiedRead s.draws :: s.readLog, draws := s.draws + 1 })) ∧
    (∀ i, i < 65544 → ∃ v : Byte, v = (Config.unspecifiedRead s.draws).setWidth 8 ∧
      perform (.read .buf i 1) s =
        .next (v.setWidth 32, { s with readLog := v.setWidth 32 :: s.readLog, draws := s.draws + 1 }))

/-- R52, R56, R69: a buffer byte written while idle is what a later read of it returns; every other byte and every
register is unchanged. -/
def Obligations.BufferWriteThenRead : Prop :=
  ∀ (s : State) (i : Nat) (v : Byte), s.status.busy = false → i < 65544 →
    ∃ t, hostAccess (.write .buf i 1 (v.setWidth 32)) s = .next t ∧
      t = { s with buf := t.buf } ∧
      perform (.read .buf i 1) t = .next (v.setWidth 32, { t with readLog := v.setWidth 32 :: t.readLog }) ∧
      (∀ j, j ≠ i → bufByte t j = bufByte s j)

/-- R51, R42, R52: which register accesses and which buffer accesses, of any width, answer a next state, in every state;
every other one is refused. That a buffer access wider than a byte is refused is 93_implementation_defined.md U26 for
R52 (log entry 12). That all these accesses are refused while busy too, and not dropped with `HAZ` as R195's "any host
write" might be read, is the model's choice (log entries 13, 27). -/
def Obligations.RefusedAccesses : Prop :=
  ∀ (s : State) (off width : Nat) (v : Word),
    ((∃ t, hostAccess (.write .reg off width v) s = .next t) ↔ width = 4 ∧ off % 4 = 0 ∧ off < 0x100) ∧
    ((∃ t, hostAccess (.read .reg off width) s = .next t) ↔ width = 4 ∧ off % 4 = 0 ∧ off < 0x100) ∧
    ((∃ t, hostAccess (.write .buf off width v) s = .next t) ↔ width = 1 ∧ off < 65544) ∧
    ((∃ t, hostAccess (.read .buf off width) s = .next t) ↔ width = 1 ∧ off < 65544) ∧
    (∀ acc, (∃ t, hostAccess acc s = .next t) ∨ ∃ r, hostAccess acc s = .refused r)

/-- R52, the sentence on a platform that offers wider accesses to the buffer: while idle a 16- or 32-bit read is the
bytes at the rising offsets, the lowest in the least significant place, and such a write is the byte writes at the
rising offsets. It is said of the port's own operations, because the machine refuses these accesses (log entry 12;
RefusedAccesses). -/
def Obligations.WideBufferAccessIsItsByteAccesses : Prop :=
  ∀ (s : State) (off : Nat) (v : Word), s.status.busy = false →
    readBufWord off 2 s =
      (BitVec.ofNat 32 ((bufByte s off).toNat + 2 ^ 8 * (bufByte s (off + 1)).toNat), s) ∧
    readBufWord off 4 s =
      (BitVec.ofNat 32 ((bufByte s off).toNat + 2 ^ 8 * (bufByte s (off + 1)).toNat +
        2 ^ 16 * (bufByte s (off + 2)).toNat + 2 ^ 24 * (bufByte s (off + 3)).toNat), s) ∧
    (∀ width ∈ [2, 4], writeBufWord off width v s =
      (List.range width).foldl (fun t j => writeBufWord (off + j) 1 (v >>> (8 * j)) t) s)

/-- R55, R66: reading a location twice while idle gives the same value, and neither read changes the engine. -/
def Obligations.IdleReadsAreIdempotent : Prop :=
  ∀ (s t : State) (sp : Space) (off width : Nat) (v : Word), s.status.busy = false →
    perform (.read sp off width) s = .next (v, t) →
    t = { s with readLog := v :: s.readLog } ∧
    perform (.read sp off width) t = .next (v, { t with readLog := v :: t.readLog })

/-- R65, R72: while a command is pending no host access changes an operand, so it completes on the state as it stood
at acceptance. -/
def Obligations.PendingCommandKeepsItsOperands : Prop :=
  ∀ (acc : Access) (s t : State), s.status.busy = true → hostAccess acc s = .next t →
    t = { s with
      status := { s.status with haz := t.status.haz }
      readLog := t.readLog
      draws := t.draws }

/-- R198, R199, with the number of early polls free (log entry 17): a `wait` after an accepted command ends,
whatever the number of early polls; the value that ends it has `BUSY = 0` and `DONE = 1` and is the `STATUS` the
completed command left. -/
def Obligations.WaitEndsWithTheCompletionStatus : Prop :=
  ∀ (polls : Nat) (s : State), s.status.busy = true →
    ∃ c v t, completeStep s = .next c ∧ waitIdle polls s = .next (v, t) ∧
      v = statusWord c.status ∧ v.getLsbD 0 = false ∧ v.getLsbD 1 = true ∧
      t = { c with readLog := t.readLog }

/-- R198, R195: a run in which the host obeys the wait rule never sets `HAZ`. The host starts the run waiting, if a
command is pending. -/
def Obligations.WaitRuleKeepsHazardClear : Prop :=
  ∀ (n : Nat) (waiting : Bool) (s t : State), s.status.haz = false → (s.status.busy = true → waiting = true) →
    obeysWaitRule n waiting s = true → steps n s = .next t → t.status.haz = false

/-- The wait rule (R198) holds of what the host has READ: after a write of `CMD` and the engine's turn, with `STATUS`
unread, a write of `LEN` breaks it, and after a read of `STATUS` it does not (95_test_vectors.md P5 line 8). -/
def Obligations.UnpolledAccessBreaksTheWaitRule : Prop :=
  ∀ (s : State) (w v : Word) (rest : List Event), s.status.busy = false →
    obeysWaitRule 3 false
      { s with inputs := .host (.write .reg 0x00 4 w) :: .engine :: .host (.write .reg 0x08 4 v) :: rest } = false ∧
    obeysWaitRule 4 false
      { s with inputs := .host (.write .reg 0x00 4 w) :: .engine :: .host (.read .reg 0x04 4) ::
          .host (.write .reg 0x08 4 v) :: rest } = true

/-- 95_test_vectors.md P5 lines 7 to 10 (R20, R195): in a run of a host program that writes `LEN` between a command and
its `wait`, the engine may complete after the write, which is then dropped with `HAZ`, or before it, when it is an
ordinary write. The schedule (log entry 17) says which. -/
def Obligations.CompletionBeforeOrAfterAnAccess : Prop :=
  ∀ (i : Instr) (s t : State) (v : Word) (polls : Nat), s.status.busy = false →
    exec i (accept (encode i) s) = .next t →
    let program : Prog Word := cmd i (wr 0x08 v (.wait fun st => .done st))
    (∃ u, program.run [0, 0, polls] s = .next (statusWord u.status, u) ∧
      u = { t with status := { t.status with haz := true }, readLog := u.readLog }) ∧
    (∃ u, program.run [0, 1, polls] s = .next (statusWord u.status, u) ∧
      u = { t with len := v, readLog := u.readLog })

/-- R177, R41: the key reaches the host only through the bytes that `ENC` and `DEC` write. Change the key of any state:
the step still has the same outcome but for the key and the buffer. The buffer is the same too unless the step completes
an `ENC` or a `DEC` that executes, and then it is the same from `pad8(LEN)` on (`LEN` itself for `DEC`, which needs whole
blocks). What the host has read, `LEN`, the accumulators and `STATUS` are the same. -/
def Obligations.KeyReachesOnlyTheBuffer : Prop :=
  ∀ (s t : State) (k : Key), step s = .next t →
    ∃ u, step { s with key := k } = .next u ∧ u = { t with key := u.key, buf := u.buf } ∧
      (¬ (completesCommand s = true ∧ s.len.toNat ≤ 65544 ∧ s.klen = 16 ∧
          (s.pend = encode .enc ∨ (s.pend = encode .dec ∧ s.len.toNat % 8 = 0))) → u.buf = t.buf) ∧
      (∀ i, pad8 s.len.toNat ≤ i → bufByte u i = bufByte t i)

/-! ## The checksum function -/

/-- R96: the closed form of a run from the initial accumulators. -/
def Obligations.AdlerClosedForm : Prop :=
  ∀ s : List Byte, adlerRun (1, 0) s =
    ((1 + (s.map BitVec.toNat).sum) % 65521,
     (s.length + ((List.range s.length).map fun i => (s.length - i) * (s.getD i 0).toNat).sum) % 65521)

/-- 40_checksum.md section 5, the incremental law (R102, the spec's own inference, "derived: from rule R96"): a run
over `p ++ q` is the run over `q` from the accumulators of the run over `p`, and `CSUM` over `p ++ q` leaves the
accumulators that `CSINIT`, `CSUPD` over `p` and `CSUPD` over `q` leave. -/
def Obligations.ChecksumIsIncremental : Prop :=
  (∀ (a b : Nat) (p q : List Byte), adlerRun (a, b) (p ++ q) = adlerRun (adlerRun (a, b) p) q) ∧
  (∀ (s0 s1 s2 u : State) (p q : List Byte),
    s1.len.toNat ≤ 65544 → s2.len.toNat ≤ 65544 → u.len.toNat ≤ 65544 →
    operandBytes s1 = p → operandBytes s2 = q → operandBytes u = p ++ q →
    ∃ t0 t1 t2 v, exec .csinit s0 = .next t0 ∧
      exec .csupd { s1 with a := t0.a, b := t0.b } = .next t1 ∧
      exec .csupd { s2 with a := t1.a, b := t1.b } = .next t2 ∧
      exec .csum u = .next v ∧ t2.a = v.a ∧ t2.b = v.b)

/-- 40_checksum.md section 5, sensitivity (R106, the spec's own inference, "derived: from rule R96"): changing one
byte from `x` to `y` changes `A` by `y - x` mod 65521, and so always changes it. -/
def Obligations.OneByteChangeChangesTheChecksum : Prop :=
  ∀ (a b : Nat) (p q : List Byte) (x y : Byte), x ≠ y →
    ((adlerRun (a, b) (p ++ y :: q)).1 + x.toNat) % 65521 = ((adlerRun (a, b) (p ++ x :: q)).1 + y.toNat) % 65521 ∧
    (adlerRun (a, b) (p ++ x :: q)).1 ≠ (adlerRun (a, b) (p ++ y :: q)).1

/-! ## The cipher -/

/-- Sanity: vectors V3.1 and V3.5 of the default cipher, and V3.11 of its inverse (log entry 9). -/
def Obligations.DefaultCipherVectors : Prop :=
  cfg.blockCipher.enc { k0 := 0, k1 := 0, k2 := 0, k3 := 0 } (0, 0) = (0xDEE9D4D8, 0xF7131ED9) ∧
  ecbEnc cfg.blockCipher { k0 := 0x03020100, k1 := 0x07060504, k2 := 0x0B0A0908, k3 := 0x0F0E0D0C }
    [0x41, 0x42, 0x43, 0x44, 0x45, 0x46, 0x47, 0x48] = [0xCA, 0xE7, 0x69, 0x7E, 0x00, 0x6E, 0xE9, 0x21] ∧
  ecbDec cfg.blockCipher { k0 := 0x03020100, k1 := 0x07060504, k2 := 0x0B0A0908, k3 := 0x0F0E0D0C }
    [0, 0, 0, 0, 0, 0, 0, 0] = [0x5F, 0xE7, 0xEC, 0xBE, 0x8F, 0xC2, 0xA2, 0x13]

/-- Property P2 of R113 for the default cipher (R114 to R117, which the spec takes "from general knowledge, not in
source"; log entry 9), for every number of cycles. -/
def Obligations.DefaultCipherIsInvertible : Prop := ∀ n : Nat, (feistelCipher n).Inverse

/-- 41_cipher.md R123's last equation (the spec's own inference, "derived: from rules R113 P2, R120"), for every block
cipher with property P2: `ecb_dec(K, ecb_enc(K, padded(p))) = padded(p)`, and the other way
round on whole blocks. -/
def Obligations.EcbRoundTripRestoresThePaddedInput : Prop :=
  ∀ (C : BlockCipher) (K : Key), C.Inverse →
    (∀ p : List Byte, ecbDec C K (ecbEnc C K (padded p)) = padded p) ∧
    (∀ c : List Byte, c.length % 8 = 0 → ecbEnc C K (ecbDec C K c) = c)

/-- 41_cipher.md R128 (i), (ii) (the spec's own inference, "derived: from rules R113, R119 to R123"), for the default
cipher (log entry 9): `ENC` then `DEC` leaves `padded(p)` in the buffer, whatever `p`, with 0 to 7 bytes added. -/
def Obligations.EncThenDecRestoresThePaddedOperand : Prop :=
  ∀ s : State, s.len.toNat ≤ 65544 → s.klen = 16 →
    ∃ t u, exec .enc s = .next t ∧ exec .dec t = .next u ∧
      u.len.toNat = pad8 s.len.toNat ∧ s.len.toNat ≤ u.len.toNat ∧ u.len.toNat - s.len.toNat ≤ 7 ∧
      u.status.err = false ∧
      (∀ i, i < s.len.toNat → bufByte u i = bufByte s i) ∧
      (∀ i, s.len.toNat ≤ i → i < pad8 s.len.toNat → bufByte u i = 0) ∧
      (∀ i, pad8 s.len.toNat ≤ i → bufByte u i = bufByte s i)

/-- 41_cipher.md R128 (iv) (the spec's own inference, as above), for the default cipher (log entry 9): on whole
blocks `DEC` then `ENC` restores the buffer and `LEN`. -/
def Obligations.DecThenEncRestoresTheOperand : Prop :=
  ∀ s : State, s.len.toNat ≤ 65544 → s.klen = 16 → s.len.toNat % 8 = 0 →
    ∃ t u, exec .dec s = .next t ∧ exec .enc t = .next u ∧ u.len = s.len ∧ u.status.err = false ∧
      (∀ i, bufByte u i = bufByte s i)

/-- 41_cipher.md R128 (iii) (the spec's own inference, as above): the bytes past `LEN` do not reach the ciphertext.
`ENC` of `p` and `ENC` of `padded(p)` leave the same `LEN` and the same buffer up to it. -/
def Obligations.EncOfPaddedEqualsEncOfPlain : Prop :=
  ∀ s s' : State, s.len.toNat ≤ 65544 → s.klen = 16 → s'.klen = 16 → s'.key = s.key →
    s'.len.toNat = pad8 s.len.toNat →
    (∀ i, i < s.len.toNat → bufByte s' i = bufByte s i) →
    (∀ i, s.len.toNat ≤ i → i < pad8 s.len.toNat → bufByte s' i = 0) →
    ∃ t t', exec .enc s = .next t ∧ exec .enc s' = .next t' ∧ t'.len = t.len ∧
      (∀ i, i < t.len.toNat → bufByte t' i = bufByte t i)

/-! ## The codec sequences -/

/-- R149: the largest payloads that encode, in the four variants, for a 16-byte key. -/
def Obligations.LargestPayloadsThatEncode : Prop :=
  ∀ (payload k : List Byte) (flags : PacketFlags), k.length = 16 →
    ((∃ f, encodeFrame payload (some k) flags = .ok f) ↔ payload.length ≤
      (if flags.cipherEnabled then 65526 else if flags.checksumEnabled then 65531 else 65535)) ∧
    ((∃ f, encodeFrame payload (some k) flags = .ok f) ∨
      encodeFrame payload (some k) flags = .error .payloadTooLarge)

/-- R146, R147: which key `finalize` uses. -/
def Obligations.FinalizeResolvesTheKey : Prop :=
  ∀ (p : Packet) (k : List Byte) (arg : Option (List Byte)),
    (p.key = some k → finalizeProgram p arg = encodeProgram p.payload (some k) p.flags) ∧
    (p.key = none → finalizeProgram p arg = encodeProgram p.payload arg p.flags) ∧
    (p.flags.cipherEnabled = false ∨ (p.key = none ∧ arg = none) →
      finalizeProgram p arg = encodeProgram p.payload none p.flags)

/-- The expansion R155 (the spec's own inference, "derived: from rule R154 ...") computes R154: the `ISVALID`
sequence, run from any idle state with any schedule, returns what R154 says; it leaves the key, `KLEN` and
`HAZ` alone and the engine idle. -/
def Obligations.IsValidSequenceComputesIsValid : Prop :=
  ∀ (raw : List Byte) (sched : List Nat) (s : State), s.status.busy = false →
    ∃ t, (isValidProgram raw).run sched s =
        .next (decide (6 ≤ raw.length ∧ ofLE16 (slice raw 0 2) + 2 = raw.length ∧
          ofLE32 (slice raw 2 6) = adler32 (raw.drop 6)), t) ∧
      t.key = s.key ∧ t.klen = s.klen ∧ t.status.haz = s.status.haz ∧ t.status.busy = false

/-- The expansion R151 (the spec's own inference, "derived: from rules R148, R149 ...") computes R148 (with R149):
the `ENCODE` sequence, run from any idle state with any schedule, returns the frame or the error of `encode`,
for every key, flags and payload (a key of 2^32 bytes or more: log entry 19); it leaves the engine idle and `HAZ`
alone. -/
def Obligations.EncodeSequenceComputesEncode : Prop :=
  ∀ (payload : List Byte) (key : Option (List Byte)) (flags : PacketFlags) (sched : List Nat) (s : State),
    s.status.busy = false →
    ∃ t, (encodeProgram payload key flags).run sched s = .next (encodeFrame payload key flags, t) ∧
      t.status.busy = false ∧ t.status.haz = s.status.haz

/-- The expansion R153 (the spec's own inference, "derived: from rule R152 ..."; its flags are R157, log entry 18)
computes R152: the `DECODE` sequence, run from any idle state with any schedule, returns
the packet or the error of `decode`, for every key (2^32 bytes or more: log entry 19); it leaves the engine idle and
`HAZ` alone. -/
def Obligations.DecodeSequenceComputesDecode : Prop :=
  ∀ (raw : List Byte) (key : Option (List Byte)) (check : Bool) (flags : PacketFlags) (sched : List Nat)
    (s : State), s.status.busy = false →
    ∃ t, (decodeProgram raw key check flags).run sched s = .next (decodeFrame raw key check flags, t) ∧
      t.status.busy = false ∧ t.status.haz = s.status.haz

/-- 42_codec_sequences.md R159 (the spec's own inference, "derived: from rules R151, R153, 41_cipher.md rule R128"),
for the default cipher (log entry 9): for every payload of at most 65526 bytes and every 16-byte key, `ENCODE` then
`DECODE` on one engine gives the payload back, for `check` on or off, and `ISVALID` of the frame is true. -/
def Obligations.CodecRoundTrip : Prop :=
  ∀ (p k : List Byte) (check : Bool) (sched sched' sched'' : List Nat) (s : State),
    p.length ≤ 65526 → k.length = 16 → s.status.busy = false →
    ∃ frame t u v packet,
      (encodeProgram p (some k) defaultFlags).run sched s = .next (.ok frame, t) ∧
      (decodePacketProgram frame k check).run sched' t = .next (.ok packet, u) ∧ packet.payload = p ∧
      (isValidProgram frame).run sched'' u = .next (true, v)
end

