-- ==== Sys2Proof/Laws/Bytes.lean ====
section
/-! SUPPORT. The renderings of 00_scope.md R17 to R19 invert each other, and the arithmetic of padding. -/

namespace Sys2Proof.Machine

@[simp] theorem toLE32_length (w : Word) : (toLE32 w).length = 4 := rfl

/-- `le32(LE32(w)) = w`. -/
@[simp] theorem ofLE32_toLE32 (w : Word) : ofLE32 (toLE32 w) = w := by
  apply BitVec.eq_of_toNat_eq
  have := w.isLt
  simp only [ofLE32, toLE32, List.getD_cons_zero, List.getD_cons_succ, BitVec.toNat_ofNat, BitVec.extractLsb'_toNat,
    Nat.shiftRight_eq_div_pow]
  omega

/-- `LE32(le32(b))` of four bytes is those bytes. -/
@[simp] theorem toLE32_ofLE32 (b0 b1 b2 b3 : Byte) : toLE32 (ofLE32 [b0, b1, b2, b3]) = [b0, b1, b2, b3] := by
  have h0 := b0.isLt
  have h1 := b1.isLt
  have h2 := b2.isLt
  have h3 := b3.isLt
  simp only [ofLE32, toLE32, List.getD_cons_zero, List.getD_cons_succ, List.cons.injEq, and_true]
  refine ⟨?_, ?_, ?_, ?_⟩ <;> apply BitVec.eq_of_toNat_eq <;>
    simp only [BitVec.extractLsb'_toNat, BitVec.toNat_ofNat, Nat.shiftRight_eq_div_pow] <;> omega

/-- `be32(BE32(w)) = w`. -/
@[simp] theorem ofBE32_toBE32 (w : Word) : ofBE32 (toBE32 w) = w := by simp [ofBE32, toBE32]

/-- `BE32(be32(b))` of four bytes is those bytes. -/
@[simp] theorem toBE32_ofBE32 (b0 b1 b2 b3 : Byte) : toBE32 (ofBE32 [b0, b1, b2, b3]) = [b0, b1, b2, b3] := by
  simp [ofBE32, toBE32]

/-- `LE16(n)` where the spec defines it. -/
theorem toLE16_of_le {n : Nat} (h : n ≤ 65535) : toLE16 n = [BitVec.ofNat 8 (n % 256), BitVec.ofNat 8 (n / 256)] :=
  if_pos h

@[simp] theorem toLE16_length (n : Nat) : (toLE16 n).length = 2 := by unfold toLE16; split <;> rfl

/-- `le16(LE16(n)) = n` for a 16-bit `n`. -/
theorem ofLE16_toLE16 {n : Nat} (h : n ≤ 65535) : ofLE16 (toLE16 n) = n := by
  simp only [ofLE16, toLE16_of_le h, List.getD_cons_zero, List.getD_cons_succ, BitVec.toNat_ofNat]
  omega

theorem ofLE16_le (s : List Byte) : ofLE16 s ≤ 65535 := by
  have h0 := (s.getD 0 0).isLt
  have h1 := (s.getD 1 0).isLt
  simp only [ofLE16]
  omega

@[simp] theorem zeros_length (n : Nat) : (zeros n).length = n := by simp [zeros]

theorem le_pad8 (n : Nat) : n ≤ pad8 n := by unfold pad8; omega

theorem pad8_mod (n : Nat) : pad8 n % 8 = 0 := by unfold pad8; omega

theorem pad8_sub_le (n : Nat) : pad8 n - n ≤ 7 := by unfold pad8; omega

theorem pad8_of_mod {n : Nat} (h : n % 8 = 0) : pad8 n = n := by unfold pad8; omega

/-- A length that fits the buffer still fits it padded, because `BUFSZ mod 8 = 0` (41_cipher.md R121). -/
theorem pad8_le_bufsz {n : Nat} (h : n ≤ 65544) : pad8 n ≤ 65544 := by unfold pad8; omega

@[simp] theorem padded_length (p : List Byte) : (padded p).length = pad8 p.length := by
  have := le_pad8 p.length
  simp only [padded, List.length_append, zeros_length]
  omega

theorem padded_of_mod {p : List Byte} (h : p.length % 8 = 0) : padded p = p := by
  simp [padded, pad8_of_mod h, zeros]

/-- Byte `i` of a padded sequence: the byte of the sequence, and 0 past its end. -/
theorem padded_getElem (p : List Byte) (i : Nat) (h : i < (padded p).length) :
    (padded p)[i] = if h' : i < p.length then p[i] else 0 := by
  unfold padded at h ⊢
  rw [List.getElem_append]
  split <;> simp [zeros]

@[simp] theorem slice_length (s : List Byte) (a b : Nat) : (slice s a b).length = min (b - a) (s.length - a) := by
  simp [slice]

end Sys2Proof.Machine
end

