-- ==== Sys2Proof/Laws/Checksum.lean ====
section
/-! SUPPORT. The checksum's arithmetic: bounds (40_checksum.md R105) and how a run splits. -/

namespace Sys2Proof.Machine

@[simp] theorem adlerRun_nil (p : Nat × Nat) : adlerRun p [] = p := rfl

@[simp] theorem adlerRun_cons (p : Nat × Nat) (x : Byte) (s : List Byte) :
    adlerRun p (x :: s) = adlerRun (adlerStep p x) s := rfl

theorem adlerRun_append (p : Nat × Nat) (s t : List Byte) :
    adlerRun p (s ++ t) = adlerRun (adlerRun p s) t := by
  simp [adlerRun]

theorem adlerStep_lt (p : Nat × Nat) (x : Byte) :
    (adlerStep p x).1 < cfg.adlerMod ∧ (adlerStep p x).2 < cfg.adlerMod :=
  ⟨Nat.mod_lt _ (by decide), Nat.mod_lt _ (by decide)⟩

/-- A run keeps both accumulators below the modulus (10_state.md R25). -/
theorem adlerRun_lt (s : List Byte) (p : Nat × Nat) (h : p.1 < cfg.adlerMod ∧ p.2 < cfg.adlerMod) :
    (adlerRun p s).1 < cfg.adlerMod ∧ (adlerRun p s).2 < cfg.adlerMod := by
  induction s generalizing p with
  | nil => exact h
  | cons x s ih => exact ih _ (adlerStep_lt p x)

theorem adlerInit_lt : adlerInit.1 < cfg.adlerMod ∧ adlerInit.2 < cfg.adlerMod := by decide

/-- The first accumulator of a run is a sum (40_checksum.md R96). -/
theorem adlerRun_fst (s : List Byte) (p : Nat × Nat) (h : p.1 < cfg.adlerMod) :
    (adlerRun p s).1 = (p.1 + (s.map BitVec.toNat).sum) % cfg.adlerMod := by
  induction s generalizing p with
  | nil => simp [Nat.mod_eq_of_lt h]
  | cons x s ih =>
    rw [adlerRun_cons, ih _ (adlerStep_lt p x).1]
    simp [adlerStep, Nat.add_assoc]

/-- The value of a pair of accumulators that fit 16 bits is their concatenation (10_state.md R26). -/
theorem append_eq_adlerValue (p : Nat × Nat) (h : p.1 < cfg.adlerMod) :
    (BitVec.ofNat 16 p.2 ++ BitVec.ofNat 16 p.1 : BitVec (16 + 16)) = adlerValue p := by
  have hm : cfg.adlerMod = 65521 := rfl
  apply BitVec.eq_of_toNat_eq
  rw [BitVec.toNat_append, ← Nat.shiftLeft_add_eq_or_of_lt (BitVec.isLt _)]
  simp only [adlerValue, BitVec.toNat_ofNat, Nat.shiftLeft_eq]
  omega

end Sys2Proof.Machine
end

