-- ==== Sys2Proof/Laws/Cipher.lean ====
section
/-! SUPPORT. One cycle of the default cipher and its inverse (41_cipher.md R116, R117), and the mode (R120): induction
over blocks, length, inverse, and one block at a time. -/

namespace Sys2Proof.Machine

/-- Each line of R117 undoes the matching line of R116. -/
theorem decCycle_encCycle (K : Key) (i : Nat) (v : Word × Word) : decCycle K i (encCycle K i v) = v := by
  simp [decCycle, encCycle]

theorem encCycle_decCycle (K : Key) (i : Nat) (v : Word × Word) : encCycle K i (decCycle K i v) = v := by
  simp [decCycle, encCycle]

/-- One block of the mode: `LE32(v0') ++ LE32(v1')` in front of the rest (R112, R120). -/
theorem ecbMap_block (f : Word × Word → Word × Word) (v0 v1 : Word) (rest : List Byte) :
    ecbMap f (toLE32 v0 ++ toLE32 v1 ++ rest) =
      toLE32 (f (v0, v1)).1 ++ toLE32 (f (v0, v1)).2 ++ ecbMap f rest := by
  have h0 := ofLE32_toLE32 v0
  have h1 := ofLE32_toLE32 v1
  simp only [toLE32] at h0 h1
  conv_lhs => simp only [toLE32, List.cons_append, List.nil_append, ecbMap, h0, h1]
  simp only [toLE32, List.cons_append, List.nil_append]

@[simp] theorem ecbMap_nil (f : Word × Word → Word × Word) : ecbMap f [] = [] := by simp [ecbMap]

/-- Induction over the blocks of a sequence of whole blocks. -/
theorem block_induction {P : List Byte → Prop} (nil : P [])
    (block : ∀ v0 v1 rest, rest.length % 8 = 0 → P rest → P (toLE32 v0 ++ toLE32 v1 ++ rest))
    (p : List Byte) (h : p.length % 8 = 0) : P p := by
  match p, h with
  | [], _ => exact nil
  | b0 :: b1 :: b2 :: b3 :: b4 :: b5 :: b6 :: b7 :: rest, h =>
    have hr : rest.length % 8 = 0 := by simp only [List.length_cons] at h; omega
    have := block (ofLE32 [b0, b1, b2, b3]) (ofLE32 [b4, b5, b6, b7]) rest hr (block_induction nil block rest hr)
    simpa only [toLE32_ofLE32, List.cons_append, List.nil_append] using this

theorem ecbMap_length (f : Word × Word → Word × Word) {p : List Byte} (h : p.length % 8 = 0) :
    (ecbMap f p).length = p.length := by
  refine block_induction (P := fun p => (ecbMap f p).length = p.length) (by simp) ?_ p h
  intro v0 v1 rest _ ih
  simp only [ecbMap_block, List.length_append, toLE32_length, ih]

/-- On whole blocks the mode carries an inverse of the block function to an inverse of the whole. -/
theorem ecbMap_inverse {f g : Word × Word → Word × Word} (hfg : ∀ v, g (f v) = v) {p : List Byte}
    (h : p.length % 8 = 0) : ecbMap g (ecbMap f p) = p := by
  refine block_induction (P := fun p => ecbMap g (ecbMap f p) = p) (by simp) ?_ p h
  intro v0 v1 rest _ ih
  simp only [ecbMap_block, ih, hfg]

/-- The mode splits at a block boundary. -/
theorem ecbMap_append (f : Word × Word → Word × Word) {p : List Byte} (q : List Byte) (h : p.length % 8 = 0) :
    ecbMap f (p ++ q) = ecbMap f p ++ ecbMap f q := by
  refine block_induction (P := fun p => ecbMap f (p ++ q) = ecbMap f p ++ ecbMap f q) (by simp) ?_ p h
  intro v0 v1 rest _ ih
  rw [List.append_assoc, ecbMap_block, ih, ecbMap_block]
  simp only [List.append_assoc]

/-- Block `j` of the result depends on block `j` of the input alone (R120). -/
theorem ecbMap_slice (f : Word × Word → Word × Word) {p : List Byte} (h : p.length % 8 = 0) {j : Nat}
    (hj : 8 * j < p.length) :
    slice (ecbMap f p) (8 * j) (8 * j + 8) = ecbMap f (slice p (8 * j) (8 * j + 8)) := by
  have h1 : (p.take (8 * j)).length % 8 = 0 := by simp; omega
  have h2 : ((p.drop (8 * j)).take 8).length % 8 = 0 := by simp; omega
  have e : p = p.take (8 * j) ++ ((p.drop (8 * j)).take 8 ++ (p.drop (8 * j)).drop 8) := by
    rw [List.take_append_drop, List.take_append_drop]
  have hl1 : (ecbMap f (p.take (8 * j))).length = 8 * j := by
    rw [ecbMap_length f h1]; simp; omega
  have hl2 : (ecbMap f ((p.drop (8 * j)).take 8)).length = 8 := by
    rw [ecbMap_length f h2]; simp; omega
  have hs : slice p (8 * j) (8 * j + 8) = (p.drop (8 * j)).take 8 := by simp [slice]
  rw [hs]
  conv_lhs => rw [e, ecbMap_append f _ h1, ecbMap_append f _ h2]
  simp only [slice, Nat.add_sub_cancel_left]
  rw [List.drop_left' hl1, List.take_left' hl2]

end Sys2Proof.Machine
end

