-- ==== Sys2Proof/Laws/Decode.lean ====
section
/-! SUPPORT. The fields of a command word and the word of a pair of fields (30_encoding.md R75). -/

namespace Sys2Proof

/-- The word of a pair of fields as a number. -/
theorem wordOf_toNat (f : CommandFields) : (wordOf f).toNat = f.rsv.toNat * 256 + f.op.toNat := by
  rw [wordOf, BitVec.toNat_append, ← Nat.shiftLeft_add_eq_or_of_lt f.op.isLt, Nat.shiftLeft_eq]

@[simp] theorem fieldsOf_wordOf (f : CommandFields) : fieldsOf (wordOf f) = f := by
  have hw := wordOf_toNat f
  obtain ⟨op, rsv⟩ := f
  have h1 := op.isLt
  have h2 := rsv.isLt
  simp only at hw
  simp only [fieldsOf, CommandFields.mk.injEq]
  constructor <;> apply BitVec.eq_of_toNat_eq <;>
    rw [BitVec.extractLsb'_toNat, hw, Nat.shiftRight_eq_div_pow] <;> omega

@[simp] theorem wordOf_fieldsOf (w : Word) : wordOf (fieldsOf w) = w := by
  have h := w.isLt
  apply BitVec.eq_of_toNat_eq
  rw [wordOf_toNat]
  simp only [fieldsOf, BitVec.extractLsb'_toNat, Nat.shiftRight_eq_div_pow]
  omega

/-- An operation code names a command exactly when it is that command's (R76). -/
theorem instrOfOp_eq_some {op : BitVec 8} {i : Instr} : instrOfOp op = some i ↔ op = opOf i := by
  constructor
  · intro h
    simp only [instrOfOp] at h
    repeat' split at h
    all_goals first | (cases h; assumption) | cases h
  · rintro rfl
    cases i <;> decide

end Sys2Proof
end

