-- ==== Sys2Proof/Laws/State.lean ====
section
/-! SUPPORT. One lemma per field per update of State and of Status, each true by unfolding, so that no later proof
unfolds a record update. -/

namespace Sys2Proof.Machine

/-! ### `accept` -/

@[simp] theorem accept_key (w : Word) (s : State) : (accept w s).key = s.key := rfl
@[simp] theorem accept_klen (w : Word) (s : State) : (accept w s).klen = s.klen := rfl
@[simp] theorem accept_len (w : Word) (s : State) : (accept w s).len = s.len := rfl
@[simp] theorem accept_a (w : Word) (s : State) : (accept w s).a = s.a := rfl
@[simp] theorem accept_b (w : Word) (s : State) : (accept w s).b = s.b := rfl
@[simp] theorem accept_buf (w : Word) (s : State) : (accept w s).buf = s.buf := rfl
@[simp] theorem accept_status (w : Word) (s : State) : (accept w s).status = statusAccepted s.status := rfl
@[simp] theorem accept_pend (w : Word) (s : State) : (accept w s).pend = w := rfl
@[simp] theorem accept_inputs (w : Word) (s : State) : (accept w s).inputs = s.inputs := rfl
@[simp] theorem accept_readLog (w : Word) (s : State) : (accept w s).readLog = s.readLog := rfl
@[simp] theorem accept_epoch (w : Word) (s : State) : (accept w s).epoch = s.epoch := rfl
@[simp] theorem accept_draws (w : Word) (s : State) : (accept w s).draws = s.draws := rfl

/-! ### `finish` -/

@[simp] theorem finish_key (s : State) : (finish s).key = s.key := rfl
@[simp] theorem finish_klen (s : State) : (finish s).klen = s.klen := rfl
@[simp] theorem finish_len (s : State) : (finish s).len = s.len := rfl
@[simp] theorem finish_a (s : State) : (finish s).a = s.a := rfl
@[simp] theorem finish_b (s : State) : (finish s).b = s.b := rfl
@[simp] theorem finish_buf (s : State) : (finish s).buf = s.buf := rfl
@[simp] theorem finish_status (s : State) : (finish s).status = statusCompleted s.status := rfl
@[simp] theorem finish_pend (s : State) : (finish s).pend = s.pend := rfl
@[simp] theorem finish_inputs (s : State) : (finish s).inputs = s.inputs := rfl
@[simp] theorem finish_readLog (s : State) : (finish s).readLog = s.readLog := rfl
@[simp] theorem finish_epoch (s : State) : (finish s).epoch = s.epoch := rfl
@[simp] theorem finish_draws (s : State) : (finish s).draws = s.draws := rfl

/-! ### `raise` -/

@[simp] theorem raise_key (e : ErrorKind) (s : State) : (raise e s).key = s.key := rfl
@[simp] theorem raise_klen (e : ErrorKind) (s : State) : (raise e s).klen = s.klen := rfl
@[simp] theorem raise_len (e : ErrorKind) (s : State) : (raise e s).len = s.len := rfl
@[simp] theorem raise_a (e : ErrorKind) (s : State) : (raise e s).a = s.a := rfl
@[simp] theorem raise_b (e : ErrorKind) (s : State) : (raise e s).b = s.b := rfl
@[simp] theorem raise_buf (e : ErrorKind) (s : State) : (raise e s).buf = s.buf := rfl
@[simp] theorem raise_status (e : ErrorKind) (s : State) : (raise e s).status = statusRaised e s.status := rfl
@[simp] theorem raise_pend (e : ErrorKind) (s : State) : (raise e s).pend = s.pend := rfl
@[simp] theorem raise_inputs (e : ErrorKind) (s : State) : (raise e s).inputs = s.inputs := rfl
@[simp] theorem raise_readLog (e : ErrorKind) (s : State) : (raise e s).readLog = s.readLog := rfl
@[simp] theorem raise_epoch (e : ErrorKind) (s : State) : (raise e s).epoch = s.epoch := rfl
@[simp] theorem raise_draws (e : ErrorKind) (s : State) : (raise e s).draws = s.draws := rfl

/-! ### `writeBuf` -/

@[simp] theorem writeBuf_key (s : State) (i : Nat) (v : List Byte) : (writeBuf s i v).key = s.key := rfl
@[simp] theorem writeBuf_klen (s : State) (i : Nat) (v : List Byte) : (writeBuf s i v).klen = s.klen := rfl
@[simp] theorem writeBuf_len (s : State) (i : Nat) (v : List Byte) : (writeBuf s i v).len = s.len := rfl
@[simp] theorem writeBuf_a (s : State) (i : Nat) (v : List Byte) : (writeBuf s i v).a = s.a := rfl
@[simp] theorem writeBuf_b (s : State) (i : Nat) (v : List Byte) : (writeBuf s i v).b = s.b := rfl
@[simp] theorem writeBuf_buf (s : State) (i : Nat) (v : List Byte) : (writeBuf s i v).buf = Memory.storeBytes s.buf i v := rfl
@[simp] theorem writeBuf_status (s : State) (i : Nat) (v : List Byte) : (writeBuf s i v).status = s.status := rfl
@[simp] theorem writeBuf_pend (s : State) (i : Nat) (v : List Byte) : (writeBuf s i v).pend = s.pend := rfl
@[simp] theorem writeBuf_inputs (s : State) (i : Nat) (v : List Byte) : (writeBuf s i v).inputs = s.inputs := rfl
@[simp] theorem writeBuf_readLog (s : State) (i : Nat) (v : List Byte) : (writeBuf s i v).readLog = s.readLog := rfl
@[simp] theorem writeBuf_epoch (s : State) (i : Nat) (v : List Byte) : (writeBuf s i v).epoch = s.epoch := rfl
@[simp] theorem writeBuf_draws (s : State) (i : Nat) (v : List Byte) : (writeBuf s i v).draws = s.draws := rfl

/-! ### `setAccumulators` -/

@[simp] theorem setAccumulators_key (p : Nat × Nat) (s : State) : (setAccumulators p s).key = s.key := rfl
@[simp] theorem setAccumulators_klen (p : Nat × Nat) (s : State) : (setAccumulators p s).klen = s.klen := rfl
@[simp] theorem setAccumulators_len (p : Nat × Nat) (s : State) : (setAccumulators p s).len = s.len := rfl
@[simp] theorem setAccumulators_a (p : Nat × Nat) (s : State) : (setAccumulators p s).a = BitVec.ofNat 16 p.1 := rfl
@[simp] theorem setAccumulators_b (p : Nat × Nat) (s : State) : (setAccumulators p s).b = BitVec.ofNat 16 p.2 := rfl
@[simp] theorem setAccumulators_buf (p : Nat × Nat) (s : State) : (setAccumulators p s).buf = s.buf := rfl
@[simp] theorem setAccumulators_status (p : Nat × Nat) (s : State) : (setAccumulators p s).status = s.status := rfl
@[simp] theorem setAccumulators_pend (p : Nat × Nat) (s : State) : (setAccumulators p s).pend = s.pend := rfl
@[simp] theorem setAccumulators_inputs (p : Nat × Nat) (s : State) : (setAccumulators p s).inputs = s.inputs := rfl
@[simp] theorem setAccumulators_readLog (p : Nat × Nat) (s : State) : (setAccumulators p s).readLog = s.readLog := rfl
@[simp] theorem setAccumulators_epoch (p : Nat × Nat) (s : State) : (setAccumulators p s).epoch = s.epoch := rfl
@[simp] theorem setAccumulators_draws (p : Nat × Nat) (s : State) : (setAccumulators p s).draws = s.draws := rfl

/-! ### `encEffect` -/

@[simp] theorem encEffect_key (s : State) : (encEffect s).key = s.key := rfl
@[simp] theorem encEffect_klen (s : State) : (encEffect s).klen = s.klen := rfl
@[simp] theorem encEffect_len (s : State) : (encEffect s).len = BitVec.ofNat 32 (pad8 (lenNat s)) := rfl
@[simp] theorem encEffect_a (s : State) : (encEffect s).a = s.a := rfl
@[simp] theorem encEffect_b (s : State) : (encEffect s).b = s.b := rfl
@[simp] theorem encEffect_buf (s : State) : (encEffect s).buf = Memory.storeBytes s.buf 0 (ecbEnc cfg.blockCipher s.key (padded (operandBytes s))) := rfl
@[simp] theorem encEffect_status (s : State) : (encEffect s).status = s.status := rfl
@[simp] theorem encEffect_pend (s : State) : (encEffect s).pend = s.pend := rfl
@[simp] theorem encEffect_inputs (s : State) : (encEffect s).inputs = s.inputs := rfl
@[simp] theorem encEffect_readLog (s : State) : (encEffect s).readLog = s.readLog := rfl
@[simp] theorem encEffect_epoch (s : State) : (encEffect s).epoch = s.epoch := rfl
@[simp] theorem encEffect_draws (s : State) : (encEffect s).draws = s.draws := rfl

/-! ### `decEffect` -/

@[simp] theorem decEffect_key (s : State) : (decEffect s).key = s.key := rfl
@[simp] theorem decEffect_klen (s : State) : (decEffect s).klen = s.klen := rfl
@[simp] theorem decEffect_len (s : State) : (decEffect s).len = s.len := rfl
@[simp] theorem decEffect_a (s : State) : (decEffect s).a = s.a := rfl
@[simp] theorem decEffect_b (s : State) : (decEffect s).b = s.b := rfl
@[simp] theorem decEffect_buf (s : State) : (decEffect s).buf = Memory.storeBytes s.buf 0 (ecbDec cfg.blockCipher s.key (operandBytes s)) := rfl
@[simp] theorem decEffect_status (s : State) : (decEffect s).status = s.status := rfl
@[simp] theorem decEffect_pend (s : State) : (decEffect s).pend = s.pend := rfl
@[simp] theorem decEffect_inputs (s : State) : (decEffect s).inputs = s.inputs := rfl
@[simp] theorem decEffect_readLog (s : State) : (decEffect s).readLog = s.readLog := rfl
@[simp] theorem decEffect_epoch (s : State) : (decEffect s).epoch = s.epoch := rfl
@[simp] theorem decEffect_draws (s : State) : (decEffect s).draws = s.draws := rfl

/-! ### `clearKey` -/

@[simp] theorem clearKey_key (s : State) : (clearKey s).key = { k0 := 0, k1 := 0, k2 := 0, k3 := 0 } := rfl
@[simp] theorem clearKey_klen (s : State) : (clearKey s).klen = 0 := rfl
@[simp] theorem clearKey_len (s : State) : (clearKey s).len = s.len := rfl
@[simp] theorem clearKey_a (s : State) : (clearKey s).a = s.a := rfl
@[simp] theorem clearKey_b (s : State) : (clearKey s).b = s.b := rfl
@[simp] theorem clearKey_buf (s : State) : (clearKey s).buf = s.buf := rfl
@[simp] theorem clearKey_status (s : State) : (clearKey s).status = s.status := rfl
@[simp] theorem clearKey_pend (s : State) : (clearKey s).pend = s.pend := rfl
@[simp] theorem clearKey_inputs (s : State) : (clearKey s).inputs = s.inputs := rfl
@[simp] theorem clearKey_readLog (s : State) : (clearKey s).readLog = s.readLog := rfl
@[simp] theorem clearKey_epoch (s : State) : (clearKey s).epoch = s.epoch := rfl
@[simp] theorem clearKey_draws (s : State) : (clearKey s).draws = s.draws := rfl

/-! ### `dropWrite` -/

@[simp] theorem dropWrite_key (s : State) : (dropWrite s).key = s.key := rfl
@[simp] theorem dropWrite_klen (s : State) : (dropWrite s).klen = s.klen := rfl
@[simp] theorem dropWrite_len (s : State) : (dropWrite s).len = s.len := rfl
@[simp] theorem dropWrite_a (s : State) : (dropWrite s).a = s.a := rfl
@[simp] theorem dropWrite_b (s : State) : (dropWrite s).b = s.b := rfl
@[simp] theorem dropWrite_buf (s : State) : (dropWrite s).buf = s.buf := rfl
@[simp] theorem dropWrite_status (s : State) : (dropWrite s).status = statusHazard s.status := rfl
@[simp] theorem dropWrite_pend (s : State) : (dropWrite s).pend = s.pend := rfl
@[simp] theorem dropWrite_inputs (s : State) : (dropWrite s).inputs = s.inputs := rfl
@[simp] theorem dropWrite_readLog (s : State) : (dropWrite s).readLog = s.readLog := rfl
@[simp] theorem dropWrite_epoch (s : State) : (dropWrite s).epoch = s.epoch := rfl
@[simp] theorem dropWrite_draws (s : State) : (dropWrite s).draws = s.draws := rfl

/-! ### `drawWord` -/

@[simp] theorem drawWord_key (s : State) : (drawWord s).2.key = s.key := rfl
@[simp] theorem drawWord_klen (s : State) : (drawWord s).2.klen = s.klen := rfl
@[simp] theorem drawWord_len (s : State) : (drawWord s).2.len = s.len := rfl
@[simp] theorem drawWord_a (s : State) : (drawWord s).2.a = s.a := rfl
@[simp] theorem drawWord_b (s : State) : (drawWord s).2.b = s.b := rfl
@[simp] theorem drawWord_buf (s : State) : (drawWord s).2.buf = s.buf := rfl
@[simp] theorem drawWord_status (s : State) : (drawWord s).2.status = s.status := rfl
@[simp] theorem drawWord_pend (s : State) : (drawWord s).2.pend = s.pend := rfl
@[simp] theorem drawWord_inputs (s : State) : (drawWord s).2.inputs = s.inputs := rfl
@[simp] theorem drawWord_readLog (s : State) : (drawWord s).2.readLog = s.readLog := rfl
@[simp] theorem drawWord_epoch (s : State) : (drawWord s).2.epoch = s.epoch := rfl
@[simp] theorem drawWord_draws (s : State) : (drawWord s).2.draws = s.draws + 1 := rfl

/-! ### `withCommand` -/

@[simp] theorem withCommand_key (w : Word) (s : State) : (withCommand w s).key = s.key := rfl
@[simp] theorem withCommand_klen (w : Word) (s : State) : (withCommand w s).klen = s.klen := rfl
@[simp] theorem withCommand_len (w : Word) (s : State) : (withCommand w s).len = s.len := rfl
@[simp] theorem withCommand_a (w : Word) (s : State) : (withCommand w s).a = s.a := rfl
@[simp] theorem withCommand_b (w : Word) (s : State) : (withCommand w s).b = s.b := rfl
@[simp] theorem withCommand_buf (w : Word) (s : State) : (withCommand w s).buf = s.buf := rfl
@[simp] theorem withCommand_status (w : Word) (s : State) : (withCommand w s).status = statusAccepted s.status := rfl
@[simp] theorem withCommand_pend (w : Word) (s : State) : (withCommand w s).pend = w := rfl
@[simp] theorem withCommand_inputs (w : Word) (s : State) : (withCommand w s).inputs = .engine :: s.inputs := rfl
@[simp] theorem withCommand_readLog (w : Word) (s : State) : (withCommand w s).readLog = s.readLog := rfl
@[simp] theorem withCommand_epoch (w : Word) (s : State) : (withCommand w s).epoch = s.epoch := rfl
@[simp] theorem withCommand_draws (w : Word) (s : State) : (withCommand w s).draws = s.draws := rfl

/-! ### `platformReset` -/

@[simp] theorem platformReset_key (s : State) : (platformReset s).key = State.reset.key := rfl
@[simp] theorem platformReset_klen (s : State) : (platformReset s).klen = State.reset.klen := rfl
@[simp] theorem platformReset_len (s : State) : (platformReset s).len = State.reset.len := rfl
@[simp] theorem platformReset_a (s : State) : (platformReset s).a = State.reset.a := rfl
@[simp] theorem platformReset_b (s : State) : (platformReset s).b = State.reset.b := rfl
@[simp] theorem platformReset_buf (s : State) : (platformReset s).buf = State.reset.buf := rfl
@[simp] theorem platformReset_status (s : State) : (platformReset s).status = State.reset.status := rfl
@[simp] theorem platformReset_pend (s : State) : (platformReset s).pend = State.reset.pend := rfl
@[simp] theorem platformReset_inputs (s : State) : (platformReset s).inputs = s.inputs := rfl
@[simp] theorem platformReset_readLog (s : State) : (platformReset s).readLog = s.readLog := rfl
@[simp] theorem platformReset_epoch (s : State) : (platformReset s).epoch = s.epoch + 1 := rfl
@[simp] theorem platformReset_draws (s : State) : (platformReset s).draws = s.draws := rfl

@[simp] theorem drawWord_fst (s : State) : (drawWord s).1 = Config.unspecifiedRead s.draws := rfl

/-! ### `statusAccepted` -/

@[simp] theorem statusAccepted_busy (st : Status) : (statusAccepted st).busy = true := rfl
@[simp] theorem statusAccepted_done (st : Status) : (statusAccepted st).done = false := rfl
@[simp] theorem statusAccepted_err (st : Status) : (statusAccepted st).err = false := rfl
@[simp] theorem statusAccepted_haz (st : Status) : (statusAccepted st).haz = st.haz := rfl
@[simp] theorem statusAccepted_errcode (st : Status) : (statusAccepted st).errcode = 0 := rfl

/-! ### `statusCompleted` -/

@[simp] theorem statusCompleted_busy (st : Status) : (statusCompleted st).busy = false := rfl
@[simp] theorem statusCompleted_done (st : Status) : (statusCompleted st).done = true := rfl
@[simp] theorem statusCompleted_err (st : Status) : (statusCompleted st).err = false := rfl
@[simp] theorem statusCompleted_haz (st : Status) : (statusCompleted st).haz = st.haz := rfl
@[simp] theorem statusCompleted_errcode (st : Status) : (statusCompleted st).errcode = 0 := rfl

/-! ### `statusRaised` -/

@[simp] theorem statusRaised_busy (e : ErrorKind) (st : Status) : (statusRaised e st).busy = false := rfl
@[simp] theorem statusRaised_done (e : ErrorKind) (st : Status) : (statusRaised e st).done = true := rfl
@[simp] theorem statusRaised_err (e : ErrorKind) (st : Status) : (statusRaised e st).err = true := rfl
@[simp] theorem statusRaised_haz (e : ErrorKind) (st : Status) : (statusRaised e st).haz = st.haz := rfl
@[simp] theorem statusRaised_errcode (e : ErrorKind) (st : Status) : (statusRaised e st).errcode = errorCode e := rfl

/-! ### `statusHazard` -/

@[simp] theorem statusHazard_busy (st : Status) : (statusHazard st).busy = st.busy := rfl
@[simp] theorem statusHazard_done (st : Status) : (statusHazard st).done = st.done := rfl
@[simp] theorem statusHazard_err (st : Status) : (statusHazard st).err = st.err := rfl
@[simp] theorem statusHazard_haz (st : Status) : (statusHazard st).haz = true := rfl
@[simp] theorem statusHazard_errcode (st : Status) : (statusHazard st).errcode = st.errcode := rfl

end Sys2Proof.Machine
end

