-- ==== Sys2Proof/Laws/Memory.lean ====
section
/-! SUPPORT. The laws of the buffer: read after write, a write leaves every other byte alone, and every operation keeps
the canonical form and the extent. -/

namespace Sys2Proof.Machine

@[simp] theorem lookup_store_same (m : Memory) (i : Nat) (v : Byte) :
    Memory.lookup (Memory.store m i v) i = some v := by
  induction m with
  | nil => simp [Memory.store, Memory.lookup]
  | cons c m ih =>
    obtain ⟨x, w⟩ := c
    simp only [Memory.store]
    split
    · simp [Memory.lookup]
    · split
      · simp [Memory.lookup]
      · have : x ≠ i := by omega
        simp [Memory.lookup, this, ih]

theorem lookup_store_other (m : Memory) {i j : Nat} (v : Byte) (h : j ≠ i) :
    Memory.lookup (Memory.store m i v) j = Memory.lookup m j := by
  have h' : i ≠ j := Ne.symm h
  induction m with
  | nil => simp [Memory.store, Memory.lookup, h']
  | cons c m ih =>
    obtain ⟨x, w⟩ := c
    simp only [Memory.store]
    split
    · simp [Memory.lookup, h']
    · split
      · subst_vars; simp [Memory.lookup, h']
      · simp [Memory.lookup, ih]

/-- Every offset of `store m i v` is an offset of `m` or `i`. -/
theorem mem_store {m : Memory} {i : Nat} {v : Byte} {c : Host.Cell} (h : c ∈ Memory.store m i v) :
    c ∈ m ∨ c.1 = i := by
  induction m with
  | nil => simp [Memory.store] at h; simp [h]
  | cons d m ih =>
    obtain ⟨x, w⟩ := d
    simp only [Memory.store] at h
    split at h
    · rcases List.mem_cons.1 h with rfl | h
      · simp
      · exact .inl h
    · split at h
      · rcases List.mem_cons.1 h with rfl | h
        · simp
        · simp [h]
      · rcases List.mem_cons.1 h with rfl | h
        · simp
        · rcases ih h with h | h <;> simp [h]

theorem store_wf {m : Memory} (i : Nat) (v : Byte) (h : Memory.wf m) : Memory.wf (Memory.store m i v) := by
  induction m with
  | nil => simp [Memory.store, Memory.wf]
  | cons c m ih =>
    obtain ⟨x, w⟩ := c
    obtain ⟨hx, hm⟩ := List.pairwise_cons.1 h
    simp only [Memory.store]
    split
    · refine List.pairwise_cons.2 ⟨fun d hd => ?_, h⟩
      rcases List.mem_cons.1 hd with rfl | hd
      · simpa
      · have := hx d hd
        simp only at this ⊢
        omega
    · split
      · subst_vars
        exact List.pairwise_cons.2 ⟨hx, hm⟩
      · refine List.pairwise_cons.2 ⟨fun d hd => ?_, ih hm⟩
        rcases mem_store hd with hd | hd
        · exact hx d hd
        · simp only; omega

/-- Bytes outside the stored ones are as before. -/
theorem lookup_storeBytes_out (s : List Byte) (m : Memory) (i j : Nat) (h : j < i ∨ i + s.length ≤ j) :
    Memory.lookup (Memory.storeBytes m i s) j = Memory.lookup m j := by
  induction s generalizing m i with
  | nil => rfl
  | cons v s ih =>
    simp only [List.length_cons] at h
    rw [Memory.storeBytes, ih _ _ (by omega), lookup_store_other _ _ (by omega)]

/-- The stored bytes are what was stored. -/
theorem lookup_storeBytes_in (s : List Byte) (m : Memory) (i j : Nat) (h : j < s.length) :
    Memory.lookup (Memory.storeBytes m i s) (i + j) = some s[j] := by
  induction s generalizing m i j with
  | nil => simp at h
  | cons v s ih =>
    rw [Memory.storeBytes]
    cases j with
    | zero => rw [lookup_storeBytes_out _ _ _ _ (by omega)]; simp
    | succ j =>
      have : i + (j + 1) = (i + 1) + j := by omega
      simp only [List.length_cons] at h
      rw [this, ih _ _ _ (by omega)]
      simp

theorem storeBytes_wf (s : List Byte) (m : Memory) (i : Nat) (h : Memory.wf m) :
    Memory.wf (Memory.storeBytes m i s) := by
  induction s generalizing m i with
  | nil => exact h
  | cons v s ih => exact ih _ _ (store_wf i v h)

/-- Storing below a bound keeps every offset below it. -/
theorem storeBytes_extent (s : List Byte) (m : Memory) (i n : Nat) (h : ∀ c ∈ m, c.1 < n) (hi : i + s.length ≤ n) :
    ∀ c ∈ Memory.storeBytes m i s, c.1 < n := by
  induction s generalizing m i with
  | nil => exact h
  | cons v s ih =>
    simp only [List.length_cons] at hi
    refine ih _ _ (fun c hc => ?_) (by omega)
    rcases mem_store hc with hc | hc
    · exact h c hc
    · omega

/-- A buffer byte depends on the buffer and the epoch alone. -/
theorem bufByte_congr {s t : State} (hb : t.buf = s.buf) (he : t.epoch = s.epoch) (i : Nat) :
    bufByte t i = bufByte s i := by
  simp [bufByte, hb, he]

theorem bufBytes_congr {s t : State} (hb : t.buf = s.buf) (he : t.epoch = s.epoch) (i n : Nat) :
    bufBytes t i n = bufBytes s i n := by
  simp only [bufBytes, List.map_inj_left]
  exact fun j _ => bufByte_congr hb he j

/-- A byte inside what was stored. -/
theorem bufByte_store_in {s t : State} {i : Nat} {v : List Byte} (hb : t.buf = Memory.storeBytes s.buf i v)
    (j : Nat) (h : j < v.length) : bufByte t (i + j) = v[j] := by
  simp only [bufByte, hb, lookup_storeBytes_in _ _ _ _ h]

/-- A byte outside what was stored. -/
theorem bufByte_store_out {s t : State} {i : Nat} {v : List Byte} (hb : t.buf = Memory.storeBytes s.buf i v)
    (he : t.epoch = s.epoch) (j : Nat) (h : j < i ∨ i + v.length ≤ j) : bufByte t j = bufByte s j := by
  simp only [bufByte, hb, he, lookup_storeBytes_out _ _ _ _ h]

@[simp] theorem bufBytes_length (s : State) (i n : Nat) : (bufBytes s i n).length = n := by simp [bufBytes]

theorem bufBytes_getElem (s : State) (i n j : Nat) (h : j < (bufBytes s i n).length) :
    (bufBytes s i n)[j] = bufByte s (i + j) := by
  simp [bufBytes]

/-- What was stored, read back whole. -/
theorem bufBytes_store {s t : State} {i : Nat} {v : List Byte} (hb : t.buf = Memory.storeBytes s.buf i v) :
    bufBytes t i v.length = v := by
  apply List.ext_getElem (by simp)
  intro j h1 h2
  rw [bufBytes_getElem, bufByte_store_in hb]

end Sys2Proof.Machine
end

