-- ==== Sys2Proof/Laws/Commands.lean ====
section
/-! SUPPORT. What a completing command can do, said once: the shared operation, the checks, and all six commands. -/

namespace Sys2Proof.Machine

/-- Everything `complete` can do: raise the error its check names, or perform the whole effect. -/
theorem complete_cases {c : Option ErrorKind} {f : State → State} {s t : State} (h : complete c f s = .next t) :
    (∃ e, c = some e ∧ t = raise e s) ∨ (c = none ∧ t = finish (f s)) := by
  cases c with
  | none => exact .inr ⟨rfl, by simpa [complete] using h.symm⟩
  | some e => exact .inl ⟨e, rfl, by simpa [complete] using h.symm⟩

@[simp] theorem complete_some (e : ErrorKind) (f : State → State) (s : State) :
    complete (some e) f s = .next (raise e s) := rfl

@[simp] theorem complete_none (f : State → State) (s : State) : complete none f s = .next (finish (f s)) := rfl

/-! ### The checks (60_exceptions.md R166, R170) -/

theorem rangeCheck_none {s : State} : rangeCheck s = none ↔ lenNat s ≤ cfg.bufsz := by
  unfold rangeCheck; split <;> simp <;> omega

theorem rangeCheck_of_lt {s : State} (h : cfg.bufsz < lenNat s) : rangeCheck s = some .lengthOutOfRange := by
  simp [rangeCheck, h]

theorem keyCheck_none {s : State} : keyCheck s = none ↔ s.klen.toNat = cfg.keyBytes := by
  unfold keyCheck; split <;> simp_all

theorem keyCheck_of_ne {s : State} (h : s.klen.toNat ≠ cfg.keyBytes) : keyCheck s = some .invalidKeySize := by
  simp [keyCheck, h]

theorem alignCheck_none {s : State} : alignCheck s = none ↔ lenNat s % 8 = 0 := by
  unfold alignCheck; split <;> simp_all

theorem alignCheck_of_ne {s : State} (h : lenNat s % 8 ≠ 0) : alignCheck s = some .invalidBlockAlignment := by
  simp [alignCheck, h]

theorem encCheck_none {s : State} : encCheck s = none ↔ lenNat s ≤ cfg.bufsz ∧ s.klen.toNat = cfg.keyBytes := by
  simp [encCheck, rangeCheck_none, keyCheck_none]

theorem decCheck_none {s : State} :
    decCheck s = none ↔ (lenNat s ≤ cfg.bufsz ∧ s.klen.toNat = cfg.keyBytes) ∧ lenNat s % 8 = 0 := by
  simp [decCheck, rangeCheck_none, keyCheck_none, alignCheck_none]

/-- `KLEN = 16` as a word and as a number. -/
theorem klen_toNat_iff {s : State} : s.klen.toNat = cfg.keyBytes ↔ s.klen = 16 :=
  ⟨fun h => BitVec.eq_of_toNat_eq h, fun h => by rw [h]; rfl⟩

/-- The errors the checks of a command can name (R166). -/
def EngineError (e : ErrorKind) : Prop := e = .lengthOutOfRange ∨ e = .invalidKeySize ∨ e = .invalidBlockAlignment

theorem rangeCheck_error {s : State} {e : ErrorKind} (h : rangeCheck s = some e) : EngineError e := by
  unfold rangeCheck at h; split at h <;> simp_all [EngineError]

theorem encCheck_error {s : State} {e : ErrorKind} (h : encCheck s = some e) : EngineError e := by
  unfold encCheck rangeCheck keyCheck at h
  split at h <;> split at h <;> simp_all [EngineError]

theorem decCheck_error {s : State} {e : ErrorKind} (h : decCheck s = some e) : EngineError e := by
  unfold decCheck rangeCheck keyCheck alignCheck at h
  split at h <;> split at h <;> split at h <;> simp_all [EngineError]

/-! ### The six commands -/

/-- What each command's check is, and what its effect is. -/
def commandCheck : Instr → State → Option ErrorKind
  | .csinit, _ => none
  | .csupd, s => rangeCheck s
  | .csum, s => rangeCheck s
  | .enc, s => encCheck s
  | .dec, s => decCheck s
  | .keyclr, _ => none

/-- The effect of each command where its check names no error. -/
def commandEffect : Instr → State → State
  | .csinit, s => setAccumulators adlerInit s
  | .csupd, s => setAccumulators (adlerRun (accumulators s) (operandBytes s)) s
  | .csum, s => setAccumulators (adlerRun adlerInit (operandBytes s)) s
  | .enc, s => encEffect s
  | .dec, s => decEffect s
  | .keyclr, s => clearKey s

/-- A check reads `LEN` and `KLEN` alone. Cite it rather than compare two checks by computation: the kernel would
unfold the comparison with `BUFSZ` in unary. -/
theorem commandCheck_congr {s t : State} (hl : t.len = s.len) (hk : t.klen = s.klen) (i : Instr) :
    commandCheck i t = commandCheck i s := by
  have hr : rangeCheck t = rangeCheck s := by unfold rangeCheck lenNat; rw [hl]
  have hy : keyCheck t = keyCheck s := by unfold keyCheck; rw [hk]
  have ha : alignCheck t = alignCheck s := by unfold alignCheck lenNat; rw [hl]
  cases i <;> simp only [commandCheck, encCheck, decCheck, hr, hy, ha]

end Sys2Proof.Machine
end

