-- ==== Sys2Proof/Laws/Exec.lean ====
section
/-! SUPPORT. What `exec`, the *complete* step and a turn of the engine can do, said once. -/

namespace Sys2Proof.Machine

/-- Every command is the shared operation on its own check and effect. -/
theorem exec_eq (i : Instr) (s : State) :
    exec i s = complete (commandCheck i s) (commandEffect i) s := by
  cases i <;> rfl

theorem commandCheck_error {i : Instr} {s : State} {e : ErrorKind} (h : commandCheck i s = some e) :
    EngineError e := by
  cases i with
  | csinit => cases h
  | csupd => exact rangeCheck_error h
  | csum => exact rangeCheck_error h
  | enc => exact encCheck_error h
  | dec => exact decCheck_error h
  | keyclr => cases h

/-- Everything a command can do: raise one of its errors, writing `STATUS` alone, or perform its whole effect. -/
theorem exec_cases {i : Instr} {s t : State} (h : exec i s = .next t) :
    (∃ e, EngineError e ∧ commandCheck i s = some e ∧ t = raise e s) ∨
    (commandCheck i s = none ∧ t = finish (commandEffect i s)) := by
  rw [exec_eq] at h
  rcases complete_cases h with ⟨e, hc, rfl⟩ | ⟨hc, rfl⟩
  · exact .inl ⟨e, commandCheck_error hc, hc, rfl⟩
  · exact .inr ⟨hc, rfl⟩

theorem exec_of_check_none {i : Instr} {s : State} (h : commandCheck i s = none) :
    exec i s = .next (finish (commandEffect i s)) := by
  rw [exec_eq, h, complete_none]

theorem exec_of_check_some {i : Instr} {s : State} {e : ErrorKind} (h : commandCheck i s = some e) :
    exec i s = .next (raise e s) := by
  rw [exec_eq, h, complete_some]

/-- What no command's effect touches. -/
theorem commandEffect_frame (i : Instr) (s : State) :
    (commandEffect i s).status = s.status ∧ (commandEffect i s).pend = s.pend ∧
    (commandEffect i s).inputs = s.inputs ∧ (commandEffect i s).readLog = s.readLog ∧
    (commandEffect i s).epoch = s.epoch ∧ (commandEffect i s).draws = s.draws := by
  cases i <;> exact ⟨rfl, rfl, rfl, rfl, rfl, rfl⟩

/-- Everything the *complete* step can do: run the command the pending word names, or raise `IllegalCommand`. -/
theorem completeStep_cases (s : State) :
    (∃ i, decodeWord s.pend = .ok i ∧ completeStep s = exec i s) ∨
    (∃ r, decodeWord s.pend = .error r ∧ completeStep s = .next (raise .illegalCommand s)) := by
  unfold completeStep
  cases h : decodeWord s.pend with
  | ok i => exact .inl ⟨i, rfl, rfl⟩
  | error r => exact .inr ⟨r, rfl, rfl⟩

theorem engineTurn_idle {s : State} (h : s.status.busy = false) : engineTurn s = .next s := by simp [engineTurn, h]

theorem engineTurn_busy {s : State} (h : s.status.busy = true) : engineTurn s = completeStep s := by
  simp [engineTurn, h]

end Sys2Proof.Machine
end

