-- ==== Sys2Proof/Laws/Port.lean ====
section
/-! SUPPORT. What an access of the host can do, said once, and the accesses the codec sequences make. -/

namespace Sys2Proof.Machine

/-- A read changes at most the counter of free values. -/
theorem readSpace_snd (sp : Space) (off width : Nat) (s : State) :
    (readSpace sp off width s).2 = s ∨ (s.status.busy = true ∧ (readSpace sp off width s).2 = (drawWord s).2) := by
  cases sp with
  | reg =>
    simp only [readSpace, readReg]
    split
    · rename_i h
      simp only [Bool.and_eq_true] at h
      exact .inr ⟨h.1, rfl⟩
    · exact .inl rfl
  | buf =>
    simp only [readSpace, readBufWord]
    split
    · rename_i h
      exact .inr ⟨h, rfl⟩
    · exact .inl rfl

/-- Everything an access can do: a read returns a value and adds it to the log; a write, which returns 0, is dropped
while busy and performed while idle. -/
theorem perform_cases {acc : Access} {s : State} {d : Word × State} (h : perform acc s = .next d) :
    (∃ sp off width, acc = .read sp off width ∧ accessRefusal sp off width = none ∧
      d.1 = (readSpace sp off width s).1 ∧
      d.2 = { (readSpace sp off width s).2 with readLog := d.1 :: s.readLog }) ∨
    (∃ sp off width v, acc = .write sp off width v ∧ accessRefusal sp off width = none ∧ d.1 = 0 ∧
      ((s.status.busy = true ∧ d.2 = dropWrite s) ∨
       (s.status.busy = false ∧ d.2 = writeSpace sp off width v s))) := by
  cases acc with
  | read sp off width =>
    simp only [perform] at h
    split at h
    · cases h
    · rename_i hr
      injection h with h
      subst h
      refine .inl ⟨sp, off, width, rfl, hr, rfl, ?_⟩
      rcases readSpace_snd sp off width s with e | ⟨-, e⟩ <;> simp only [e, drawWord_readLog]
  | write sp off width v =>
    simp only [perform] at h
    split at h
    · cases h
    · rename_i hr
      injection h with h
      subst h
      refine .inr ⟨sp, off, width, v, rfl, hr, rfl, ?_⟩
      cases hb : s.status.busy <;> simp

theorem hostAccess_eq_next {acc : Access} {s t : State} :
    hostAccess acc s = .next t ↔ ∃ v, perform acc s = .next (v, t) := by
  unfold hostAccess
  cases perform acc s with
  | next d => obtain ⟨v, u⟩ := d; simp
  | fault r => simp
  | refused r => simp

/-- Everything an access does to the state. -/
theorem hostAccess_cases {acc : Access} {s t : State} (h : hostAccess acc s = .next t) :
    (∃ sp off width, acc = .read sp off width ∧ t.draws = (readSpace sp off width s).2.draws ∧
      (s.status.busy = false → t.draws = s.draws) ∧
      t = { s with readLog := t.readLog, draws := t.draws }) ∨
    (∃ sp off width v, acc = .write sp off width v ∧ accessRefusal sp off width = none ∧
      ((s.status.busy = true ∧ t = dropWrite s) ∨ (s.status.busy = false ∧ t = writeSpace sp off width v s))) := by
  obtain ⟨v, h⟩ := hostAccess_eq_next.1 h
  rcases perform_cases h with ⟨sp, off, width, rfl, -, -, h2⟩ | ⟨sp, off, width, w, rfl, hr, -, h2⟩
  · refine .inl ⟨sp, off, width, rfl, ?_⟩
    simp only at h2
    subst h2
    rcases readSpace_snd sp off width s with e | ⟨hb, e⟩ <;> simp [e, drawWord]
    simp [hb]
  · exact .inr ⟨sp, off, width, w, rfl, hr, h2⟩

/-- Everything a register write does while idle: it writes one register, or accepts a command, or nothing. -/
theorem writeReg_cases (off : Nat) (v : Word) (s : State) :
    writeReg off v s = accept v s ∨ writeReg off v s = s ∨
    ∃ key klen len, writeReg off v s = { s with key := key, klen := klen, len := len } := by
  unfold writeReg
  repeat' split
  all_goals first
    | exact .inl rfl
    | exact .inr (.inl rfl)
    | exact .inr (.inr ⟨_, _, _, rfl⟩)

theorem accessRefusal_reg_none {off width : Nat} :
    accessRefusal .reg off width = none ↔ width = 4 ∧ off % 4 = 0 ∧ off < regSpan := by
  unfold accessRefusal
  repeat' split
  all_goals simp_all

theorem accessRefusal_buf_byte {off : Nat} : accessRefusal .buf off 1 = none ↔ off < cfg.bufsz := by
  simp [accessRefusal, bufWidthDefined, cfg]

/-- The buffer accesses that have a meaning, of any width (20_memory.md R52; 93_implementation_defined.md U26). -/
theorem accessRefusal_buf_none_iff {off width : Nat} :
    accessRefusal .buf off width = none ↔ width = 1 ∧ off < cfg.bufsz := by
  by_cases h : width = 1
  · subst h; simp [accessRefusal_buf_byte]
  · simp [accessRefusal, bufWidthDefined, cfg, h]

/-- A buffer access that has a meaning lies inside the buffer and is at most 4 bytes wide. -/
theorem accessRefusal_buf_none {off width : Nat} (h : accessRefusal .buf off width = none) :
    off + width ≤ cfg.bufsz ∧ width ≤ 4 := by
  simp only [accessRefusal] at h
  split at h
  · cases h
  · split at h
    · cases h
    · rename_i h1 h2
      refine ⟨by omega, ?_⟩
      simp [bufWidthDefined] at h1
      omega

/-! ### Idle accesses of one register or one buffer byte -/

theorem perform_write_reg {s : State} (hb : s.status.busy = false) {off : Nat} (h4 : off % 4 = 0) (hlt : off < regSpan)
    (v : Word) : perform (.write .reg off 4 v) s = .next (0, writeReg off v s) := by
  simp [perform, accessRefusal_reg_none.2 ⟨rfl, h4, hlt⟩, hb, writeSpace]

theorem perform_read_reg {s : State} (hb : s.status.busy = false) {off : Nat} (h4 : off % 4 = 0) (hlt : off < regSpan) :
    perform (.read .reg off 4) s = .next (regValue s off, { s with readLog := regValue s off :: s.readLog }) := by
  simp [perform, accessRefusal_reg_none.2 ⟨rfl, h4, hlt⟩, hb, readSpace, readReg]

/-- `STATUS` is always readable and always current (70_reset_and_hazards.md R197). -/
theorem perform_statusRead (s : State) :
    perform statusRead s = .next (statusWord s.status, { s with readLog := statusWord s.status :: s.readLog }) := by
  have h : accessRefusal .reg offStatus 4 = none := by decide
  simp [perform, statusRead, h, readSpace, readReg, hiddenWhileBusy, regValue]

/-- A byte zero-extended to a word, and its byte lanes. -/
theorem take_one_toLE32_setWidth (v : Byte) : (toLE32 (v.setWidth 32)).take 1 = [v] := by
  have h := v.isLt
  simp only [toLE32, List.take_succ_cons, List.take_zero, List.cons.injEq, and_true]
  apply BitVec.eq_of_toNat_eq
  simp only [BitVec.extractLsb'_toNat, BitVec.toNat_setWidth, Nat.shiftRight_eq_div_pow]
  omega

theorem perform_write_byte {s : State} (hb : s.status.busy = false) {i : Nat} (hi : i < cfg.bufsz) (v : Byte) :
    perform (.write .buf i 1 (v.setWidth 32)) s = .next (0, writeBuf s i [v]) := by
  simp [perform, accessRefusal_buf_byte.2 hi, hb, writeSpace, writeBufWord, take_one_toLE32_setWidth]

theorem ofLE32_singleton (v : Byte) : ofLE32 [v] = v.setWidth 32 := by
  have h := v.isLt
  apply BitVec.eq_of_toNat_eq
  simp [ofLE32]

theorem perform_read_byte {s : State} (hb : s.status.busy = false) {i : Nat} (hi : i < cfg.bufsz) :
    perform (.read .buf i 1) s =
      .next ((bufByte s i).setWidth 32, { s with readLog := (bufByte s i).setWidth 32 :: s.readLog }) := by
  simp [perform, accessRefusal_buf_byte.2 hi, hb, readSpace, readBufWord, bufBytes, ofLE32_singleton]

@[simp] theorem setWidth_setWidth_byte (v : Byte) : ((v.setWidth 32).setWidth 8 : Byte) = v := by
  apply BitVec.eq_of_toNat_eq
  have := v.isLt
  simp only [BitVec.toNat_setWidth]
  omega

end Sys2Proof.Machine
end

