-- ==== Sys2Proof/Laws/Step.lean ====
section
/-! SUPPORT. Everything a step can do, said once. -/

namespace Sys2Proof.Machine

@[simp] theorem step_nil {s : State} (h : s.inputs = []) : step s = engineTurn s := by simp [step, stepOnce, h]

theorem step_cons {s : State} {e : Event} {rest : List Event} (h : s.inputs = e :: rest) :
    step s = deliver e { s with inputs := rest } := by simp [step, stepOnce, h]

/-- The four things a step is: a turn of the engine because nothing else is left, an access of the host, a turn of the
engine that the inputs give it, or a reset. -/
theorem step_cases {s t : State} (h : step s = .next t) :
    (s.inputs = [] ∧ engineTurn s = .next t) ∨
    (∃ acc rest, s.inputs = .host acc :: rest ∧ hostAccess acc { s with inputs := rest } = .next t) ∨
    (∃ rest, s.inputs = .engine :: rest ∧ engineTurn { s with inputs := rest } = .next t) ∨
    (∃ rest, s.inputs = .reset :: rest ∧ t = platformReset { s with inputs := rest }) := by
  match hi : s.inputs with
  | [] => exact .inl ⟨rfl, by rwa [step_nil hi] at h⟩
  | .host acc :: rest => exact .inr (.inl ⟨acc, rest, rfl, by rwa [step_cons hi] at h⟩)
  | .engine :: rest => exact .inr (.inr (.inl ⟨rest, rfl, by rwa [step_cons hi] at h⟩))
  | .reset :: rest =>
    rw [step_cons hi] at h
    injection h with h
    exact .inr (.inr (.inr ⟨rest, rfl, h.symm⟩))

/-- Everything a turn of the engine can do: nothing while idle; while busy end a command with an error, writing `STATUS`
alone, or perform the whole effect of the command the pending word names. -/
theorem engineTurn_cases {s t : State} (h : engineTurn s = .next t) :
    (s.status.busy = false ∧ t = s) ∨
    (s.status.busy = true ∧ ∃ e, (EngineError e ∨ e = .illegalCommand) ∧ t = raise e s) ∨
    (s.status.busy = true ∧ ∃ i, decodeWord s.pend = .ok i ∧ commandCheck i s = none ∧
      t = finish (commandEffect i s)) := by
  cases hb : s.status.busy with
  | false =>
    rw [engineTurn_idle hb] at h
    injection h with h
    exact .inl ⟨rfl, h.symm⟩
  | true =>
    rw [engineTurn_busy hb] at h
    rcases completeStep_cases s with ⟨i, hi, hc⟩ | ⟨r, -, hc⟩ <;> rw [hc] at h
    · rcases exec_cases h with ⟨e, he, -, rfl⟩ | ⟨hn, rfl⟩
      · exact .inr (.inl ⟨rfl, e, .inl he, rfl⟩)
      · exact .inr (.inr ⟨rfl, i, hi, hn, rfl⟩)
    · injection h with h
      exact .inr (.inl ⟨rfl, _, .inr rfl, h.symm⟩)

/-- A turn of the engine always answers a next state. -/
theorem engineTurn_next (s : State) : ∃ t, engineTurn s = .next t := by
  cases hb : s.status.busy with
  | false => exact ⟨s, engineTurn_idle hb⟩
  | true =>
    rw [engineTurn_busy hb]
    rcases completeStep_cases s with ⟨i, -, hc⟩ | ⟨r, -, hc⟩ <;> rw [hc]
    · rw [exec_eq]
      cases commandCheck i s <;> exact ⟨_, rfl⟩
    · exact ⟨_, rfl⟩

end Sys2Proof.Machine
end

