-- ==== Sys2Proof/Laws/HostProgram.lean ====
section
/-! SUPPORT. What each host operation does to a run (30_encoding.md R89), from an idle engine: writes, reads, and a command
with its `wait`. -/

namespace Sys2Proof.Machine

variable {α : Type}

@[simp] theorem run_done (a : α) (sched : List Nat) (s : State) : (Prog.done a).run sched s = .next (a, s) := rfl

/-- A turn given to an idle engine changes nothing, so before an access it matters only while a command is pending. -/
theorem turnBefore_idle {s : State} (hb : s.status.busy = false) (turns : Nat) : turnBefore turns s = .next s := by
  unfold turnBefore
  split
  · rfl
  · exact engineTurn_idle hb

/-- An access after which the schedule goes on with its tail. -/
theorem run_access_of_turn {acc : Access} {rest : Word → Prog α} {sched : List Nat} {s u : State} {v : Word} {t : State}
    (hu : turnBefore (sched.headD 0) s = .next u) (h : perform acc u = .next (v, t)) :
    (Prog.access acc rest).run sched s = (rest v).run sched.tail t := by
  simp only [Prog.run, hu, h]

/-- An access from an idle engine. -/
theorem run_access {acc : Access} {rest : Word → Prog α} {sched : List Nat} {s : State} {v : Word} {t : State}
    (hb : s.status.busy = false) (h : perform acc s = .next (v, t)) :
    (Prog.access acc rest).run sched s = (rest v).run sched.tail t :=
  run_access_of_turn (turnBefore_idle hb _) h

/-- `wr` (R89) from an idle engine. -/
theorem run_wr {off : Nat} {v : Word} {p : Prog α} {sched : List Nat} {s : State} (hb : s.status.busy = false)
    (h4 : off % 4 = 0) (hlt : off < regSpan) : (wr off v p).run sched s = p.run sched.tail (writeReg off v s) :=
  run_access hb (perform_write_reg hb h4 hlt v)

/-- `rd` (R89) from an idle engine. -/
theorem run_rd {off : Nat} {p : Word → Prog α} {sched : List Nat} {s : State} (hb : s.status.busy = false)
    (h4 : off % 4 = 0) (hlt : off < regSpan) :
    (rd off p).run sched s =
      (p (regValue s off)).run sched.tail { s with readLog := regValue s off :: s.readLog } :=
  run_access hb (perform_read_reg hb h4 hlt)

/-- `wbs` (R89) from an idle engine, inside the buffer. -/
theorem run_wbs {bs : List Byte} {i : Nat} {p : Prog α} {sched : List Nat} {s : State} (hb : s.status.busy = false)
    (h : i + bs.length ≤ cfg.bufsz) :
    (wbs i bs p).run sched s = p.run (sched.drop bs.length) (writeBuf s i bs) := by
  induction bs generalizing i s sched with
  | nil => rfl
  | cons v bs ih =>
    simp only [List.length_cons] at h
    rw [wbs, wb, run_access hb (perform_write_byte hb (by omega) v), ih (by simpa using hb) (by omega),
      List.drop_tail, List.length_cons]
    rfl

/-- `rbs` (R89) from an idle engine, inside the buffer: only the log of values read changes. -/
theorem run_rbs {n i : Nat} {p : List Byte → Prog α} {sched : List Nat} {s : State} (hb : s.status.busy = false)
    (h : i + n ≤ cfg.bufsz) :
    ∃ log, (rbs i n p).run sched s = (p (bufBytes s i n)).run (sched.drop n) { s with readLog := log } := by
  induction n generalizing i s p sched with
  | zero => exact ⟨s.readLog, rfl⟩
  | succ n ih =>
    rw [rbs, rb, run_access hb (perform_read_byte hb (by omega)), setWidth_setWidth_byte]
    obtain ⟨log, hl⟩ := ih (i := i + 1) (sched := sched.tail)
      (s := { s with readLog := (bufByte s i).setWidth 32 :: s.readLog }) (p := fun bs => p (bufByte s i :: bs))
      hb (by omega)
    rw [List.drop_tail] at hl
    exact ⟨log, hl⟩

/-- A command neither reads nor writes the log of values read. -/
theorem exec_readLog {i : Instr} {s t : State} (h : exec i s = .next t) (log : List Word) :
    exec i { s with readLog := log } = .next { t with readLog := log } := by
  rw [exec_eq] at h ⊢
  have hc : commandCheck i { s with readLog := log } = commandCheck i s :=
    commandCheck_congr (by rfl) (by rfl) i
  have he : commandEffect i { s with readLog := log } = { commandEffect i s with readLog := log } := by
    cases i <;> rfl
  rw [hc]
  rcases complete_cases h with ⟨e, hs, rfl⟩ | ⟨hs, rfl⟩ <;> rw [hs]
  · rfl
  · rw [complete_none, he]; rfl

theorem completeStep_readLog {s t : State} (h : completeStep s = .next t) (log : List Word) :
    completeStep { s with readLog := log } = .next { t with readLog := log } := by
  unfold completeStep at h ⊢
  simp only
  cases hd : decodeWord s.pend with
  | ok i => rw [hd] at h; exact exec_readLog h log
  | error r => rw [hd] at h; injection h with h; subst h; rfl

/-- A completed command is idle and done. -/
theorem completeStep_idle {s t : State} (h : completeStep s = .next t) :
    t.status.busy = false ∧ t.status.done = true := by
  rcases completeStep_cases s with ⟨i, -, hc⟩ | ⟨r, -, hc⟩ <;> rw [hc] at h
  · rcases exec_cases h with ⟨e, -, -, rfl⟩ | ⟨-, rfl⟩ <;> exact ⟨rfl, rfl⟩
  · injection h with h; subst h; exact ⟨rfl, rfl⟩

/-- Bits 0, 1 and 2 of the `STATUS` register (10_state.md R28). -/
theorem statusWord_busy (st : Status) : (statusWord st).getLsbD 0 = st.busy := by
  obtain ⟨busy, done, err, haz, errcode⟩ := st
  cases busy <;> cases done <;> cases err <;> cases haz <;> revert errcode <;> decide

theorem statusWord_done (st : Status) : (statusWord st).getLsbD 1 = st.done := by
  obtain ⟨busy, done, err, haz, errcode⟩ := st
  cases busy <;> cases done <;> cases err <;> cases haz <;> revert errcode <;> decide

theorem statusWord_err (st : Status) : (statusWord st).getLsbD 2 = st.err := by
  obtain ⟨busy, done, err, haz, errcode⟩ := st
  cases busy <;> cases done <;> cases err <;> cases haz <;> revert errcode <;> decide

theorem statusWord_errcode (st : Status) : (statusWord st).extractLsb' 4 4 = st.errcode := by
  obtain ⟨busy, done, err, haz, errcode⟩ := st
  cases busy <;> cases done <;> cases err <;> cases haz <;> revert errcode <;> decide

/-- The code of a kind names that kind (60_exceptions.md R165). -/
@[simp] theorem errorOfCode_errorCode (e : ErrorKind) : errorOfCode (errorCode e) = some e := by
  cases e <;> decide

theorem statusError_completed (st : Status) : statusError (statusWord (statusCompleted st)) = none := by
  rw [statusError, statusWord_err]; rfl

theorem statusError_raised (e : ErrorKind) (st : Status) : statusError (statusWord (statusRaised e st)) = some e := by
  rw [statusError, statusWord_err, statusWord_errcode]
  simp

/-- A `wait` with a command pending (70_reset_and_hazards.md R198): whatever the number of early polls, the command
completes and the last value is the `STATUS` it left. -/
theorem waitIdle_busy (polls : Nat) {s t : State} (hb : s.status.busy = true) (h : completeStep s = .next t) :
    ∃ log, waitIdle polls s = .next (statusWord t.status, { t with readLog := log }) := by
  induction polls generalizing s t with
  | zero =>
    rw [waitIdle, engineTurn_busy hb, h]
    exact ⟨_, perform_statusRead t⟩
  | succ n ih =>
    rw [waitIdle, perform_statusRead]
    simp only [statusWord_busy, hb, if_true]
    obtain ⟨log, hl⟩ := ih (s := { s with readLog := statusWord s.status :: s.readLog }) hb
      (completeStep_readLog h _)
    exact ⟨log, hl⟩

/-- A `wait` with no command pending ends at its first read. -/
theorem waitIdle_idle (polls : Nat) {s : State} (hb : s.status.busy = false) :
    waitIdle polls s = .next (statusWord s.status, { s with readLog := statusWord s.status :: s.readLog }) := by
  cases polls with
  | zero => rw [waitIdle, engineTurn_idle hb]; exact perform_statusRead s
  | succ n =>
    rw [waitIdle, perform_statusRead]
    simp only [statusWord_busy, hb, Bool.false_eq_true, if_false]

/-- `cmd M; wait -> st` from an idle engine (R88, R89): the command runs on the accepted state, and the rest of the
program gets the `STATUS` it left. -/
theorem run_cmd_wait {i : Instr} {f : Word → Prog α} {sched : List Nat} {s t : State} (hb : s.status.busy = false)
    (h : exec i (accept (encode i) s) = .next t) :
    ∃ log, (cmd i (.wait f)).run sched s =
      (f (statusWord t.status)).run (sched.drop 2) { t with readLog := log } := by
  have hd : decodeWord (encode i) = .ok i := by cases i <;> decide
  have hc : completeStep (accept (encode i) s) = .next t := by
    rw [completeStep, accept_pend, hd]; exact h
  obtain ⟨log, hw⟩ := waitIdle_busy (sched.tail.headD 0) (s := accept (encode i) s) rfl hc
  refine ⟨log, ?_⟩
  rw [cmd, run_wr hb (by decide) (by decide)]
  have ha : writeReg offCmd (encode i) s = accept (encode i) s := rfl
  have ht : sched.tail.tail = sched.drop 2 := by rw [← List.drop_one (l := sched), List.tail_drop]
  rw [ha, Prog.run, hw, ← ht]

/-- A key's length as `KLEN` is 16 exactly for a key of 16 bytes. -/
theorem keyLengthWord_eq_iff (k : List Byte) : (keyLengthWord k).toNat = 16 ↔ k.length = 16 := by
  simp only [keyLengthWord, BitVec.toNat_ofNat]
  omega

end Sys2Proof.Machine
end

