-- ==== Sys2Proof/Laws/Operand.lean ====
section
/-! SUPPORT. The operand `BUF[0:LEN)` before and after each data command, and what it depends on. -/

namespace Sys2Proof.Machine

@[simp] theorem operandBytes_length (s : State) : (operandBytes s).length = s.len.toNat := by
  simp [operandBytes, lenNat]

/-- The operand depends on the buffer, the epoch and `LEN` alone. Cite it rather than compare two operands by
computation. -/
theorem operandBytes_congr {s t : State} (hb : t.buf = s.buf) (he : t.epoch = s.epoch) (hl : t.len = s.len) :
    operandBytes t = operandBytes s := by
  rw [operandBytes, operandBytes, lenNat, lenNat, hl, bufBytes_congr hb he]

/-- Byte `i` of the operand is `BUF[i]`. -/
theorem operandBytes_getElem (s : State) (i : Nat) (h : i < (operandBytes s).length) :
    (operandBytes s)[i] = bufByte s i := by
  simp [operandBytes, bufBytes_getElem]

/-- A byte of the buffer below `LEN`, from what the operand is known to be. -/
theorem bufByte_of_operand {s : State} {p : List Byte} (e : operandBytes s = p) {i : Nat} (h : i < s.len.toNat) :
    ∃ h', bufByte s i = p[i]'h' := by
  subst e
  exact ⟨by simpa using h, (operandBytes_getElem s i (by simpa using h)).symm⟩

theorem padded_operand_length (s : State) : (padded (operandBytes s)).length = pad8 s.len.toNat := by
  simp

/-- What `ENC` stores is `pad8(LEN)` bytes (41_cipher.md R121). -/
theorem ecbEnc_operand_length (C : BlockCipher) (K : Key) (s : State) :
    (ecbEnc C K (padded (operandBytes s))).length = pad8 s.len.toNat := by
  rw [ecbEnc, ecbMap_length _ (by rw [padded_length]; exact pad8_mod _), padded_operand_length]

/-- What `DEC` stores is `LEN` bytes (41_cipher.md R122). -/
theorem ecbDec_operand_length (C : BlockCipher) (K : Key) {s : State} (h : s.len.toNat % 8 = 0) :
    (ecbDec C K (operandBytes s)).length = s.len.toNat := by
  rw [ecbDec, ecbMap_length _ (by simpa using h), operandBytes_length]

/-- The new `LEN` of `ENC` fits its register. -/
theorem encEffect_len_toNat {s : State} (h : s.len.toNat ≤ cfg.bufsz) :
    (encEffect s).len.toNat = pad8 s.len.toNat := by
  have := pad8_le_bufsz h
  simp only [encEffect_len, lenNat, BitVec.toNat_ofNat]
  omega

/-- The operand after `ENC`: the padded operand, enciphered. -/
theorem encEffect_operand {s : State} (h : s.len.toNat ≤ cfg.bufsz) :
    operandBytes (encEffect s) = ecbEnc cfg.blockCipher s.key (padded (operandBytes s)) := by
  have e := bufBytes_store (encEffect_buf s)
  rw [ecbEnc_operand_length] at e
  rw [operandBytes, lenNat, encEffect_len_toNat h]
  exact e

/-- The operand after `DEC`: the operand, deciphered. -/
theorem decEffect_operand {s : State} (h : s.len.toNat % 8 = 0) :
    operandBytes (decEffect s) = ecbDec cfg.blockCipher s.key (operandBytes s) := by
  have e := bufBytes_store (decEffect_buf s)
  rw [ecbDec_operand_length _ _ h] at e
  rw [operandBytes, lenNat, decEffect_len]
  exact e

/-- Past what it stores `ENC` leaves every byte as it was. -/
theorem encEffect_above (s : State) {i : Nat} (h : pad8 s.len.toNat ≤ i) : bufByte (encEffect s) i = bufByte s i :=
  bufByte_store_out (encEffect_buf s) (encEffect_epoch s) i
    (.inr (by rw [ecbEnc_operand_length, Nat.zero_add]; exact h))

/-- Past what it stores `DEC` leaves every byte as it was. -/
theorem decEffect_above {s : State} (hm : s.len.toNat % 8 = 0) {i : Nat} (h : s.len.toNat ≤ i) :
    bufByte (decEffect s) i = bufByte s i :=
  bufByte_store_out (decEffect_buf s) (decEffect_epoch s) i
    (.inr (by rw [ecbDec_operand_length _ _ hm, Nat.zero_add]; exact h))

/-- `finish` and `raise` write `STATUS` alone, so the operand and every byte stay. -/
@[simp] theorem finish_operand (s : State) : operandBytes (finish s) = operandBytes s :=
  operandBytes_congr (finish_buf s) (finish_epoch s) (finish_len s)

@[simp] theorem finish_bufByte (s : State) (i : Nat) : bufByte (finish s) i = bufByte s i :=
  bufByte_congr (finish_buf s) (finish_epoch s) i

@[simp] theorem accept_operand (w : Word) (s : State) : operandBytes (accept w s) = operandBytes s :=
  operandBytes_congr (accept_buf w s) (accept_epoch w s) (accept_len w s)

@[simp] theorem accept_bufByte (w : Word) (s : State) (i : Nat) : bufByte (accept w s) i = bufByte s i :=
  bufByte_congr (accept_buf w s) (accept_epoch w s) i

/-- A command does the same whatever `HAZ` is, and keeps it: a write dropped before it completes is the same as one
dropped after (70_reset_and_hazards.md R195). -/
theorem commandEffect_dropWrite (i : Instr) (s : State) :
    commandEffect i (dropWrite s) = dropWrite (commandEffect i s) := by
  have ho : operandBytes (dropWrite s) = operandBytes s :=
    operandBytes_congr (dropWrite_buf s) (dropWrite_epoch s) (dropWrite_len s)
  cases i with
  | csinit => rfl
  | csupd => simp only [commandEffect, ho]; rfl
  | csum => simp only [commandEffect, ho]; rfl
  | enc => simp only [commandEffect, encEffect, ho]; rfl
  | dec => simp only [commandEffect, decEffect, ho]; rfl
  | keyclr => rfl

theorem exec_dropWrite {i : Instr} {s t : State} (h : exec i s = .next t) :
    exec i (dropWrite s) = .next (dropWrite t) := by
  rcases exec_cases h with ⟨e, -, hc, rfl⟩ | ⟨hc, rfl⟩
  · rw [exec_of_check_some ((commandCheck_congr (dropWrite_len s) (dropWrite_klen s) i).trans hc)]
    rfl
  · rw [exec_of_check_none ((commandCheck_congr (dropWrite_len s) (dropWrite_klen s) i).trans hc),
      commandEffect_dropWrite]
    rfl

/-- The key has no part in the operand, and a command's effect keeps a different key, but for `KEYCLR`; only `ENC` and
`DEC` bring it into the buffer. -/
theorem withKey_operand (k : Key) (s : State) : operandBytes { s with key := k } = operandBytes s :=
  operandBytes_congr rfl rfl rfl

theorem commandEffect_withKey_csupd (k : Key) (s : State) :
    commandEffect .csupd { s with key := k } = { commandEffect .csupd s with key := k } := by
  simp only [commandEffect, withKey_operand, setAccumulators, accumulators]

theorem commandEffect_withKey_csum (k : Key) (s : State) :
    commandEffect .csum { s with key := k } = { commandEffect .csum s with key := k } := by
  simp only [commandEffect, withKey_operand, setAccumulators]

theorem encEffect_withKey (k : Key) (s : State) :
    encEffect { s with key := k } =
      { encEffect s with key := k, buf := (encEffect { s with key := k }).buf } := by
  simp only [encEffect, writeBuf, lenNat]

theorem decEffect_withKey (k : Key) (s : State) :
    decEffect { s with key := k } =
      { decEffect s with key := k, buf := (decEffect { s with key := k }).buf } := by
  simp only [decEffect, writeBuf]

end Sys2Proof.Machine
end

