-- ==== Sys2Proof/Laws/Codec.lean ====
section
/-! SUPPORT. The parts of the codec sequences (42_codec_sequences.md R151, R153, R155), each said once, run from an idle
engine. -/

namespace Sys2Proof.Machine

variable {α : Type}

/-- What the codec sequences keep of an engine that is idle between commands: only the log of values read, the
accumulators and `STATUS` may have changed, and `HAZ` has not. -/
structure SameData (s t : State) : Prop where
  key : t.key = s.key
  klen : t.klen = s.klen
  len : t.len = s.len
  buf : t.buf = s.buf
  epoch : t.epoch = s.epoch
  haz : t.status.haz = s.status.haz
  busy : t.status.busy = s.status.busy

theorem SameData.operand {s t : State} (h : SameData s t) : operandBytes t = operandBytes s :=
  operandBytes_congr h.buf h.epoch h.len

/-- The key of exactly 16 bytes, loaded (30_encoding.md R89). -/
theorem run_loadKey16 (k : List Byte) {p : Prog α} {sched : List Nat} {s : State} (hb : s.status.busy = false) :
    (loadKey16 k p).run sched s = p.run (sched.drop 5) { s with key := keyOfBytes k, klen := 16 } := by
  rw [loadKey16, run_wr hb (by decide) (by decide)]
  rw [run_wr (by exact hb) (by decide) (by decide), run_wr (by exact hb) (by decide) (by decide),
    run_wr (by exact hb) (by decide) (by decide), run_wr (by exact hb) (by decide) (by decide)]
  simp only [← List.drop_one, List.drop_drop]
  rfl

/-- A key of any length, loaded: `KLEN` is 16 exactly for a key of 16 bytes, and then the key words are its words. -/
theorem run_loadKey (k : List Byte) {p : Prog α} {sched : List Nat} {s : State} (hb : s.status.busy = false) :
    ∃ t sched', (loadKey k p).run sched s = p.run sched' t ∧ t = { s with key := t.key, klen := t.klen } ∧
      (t.klen.toNat = 16 ↔ k.length = 16) ∧ (k.length = 16 → t.key = keyOfBytes k) := by
  unfold loadKey
  split
  · rename_i h
    exact ⟨_, _, run_loadKey16 k hb, rfl, ⟨fun _ => h, fun _ => rfl⟩, fun _ => rfl⟩
  · rename_i h
    exact ⟨_, _, run_wr hb (by decide) (by decide), rfl, keyLengthWord_eq_iff k, fun e => (h e).elim⟩

/-- The operand, loaded. -/
theorem run_loadData {bs : List Byte} {p : Prog α} {sched : List Nat} {s : State} (hb : s.status.busy = false)
    (h : bs.length ≤ cfg.bufsz) :
    ∃ t, (loadData bs p).run sched s = p.run (sched.drop (bs.length + 1)) t ∧ t = { s with buf := t.buf, len := t.len } ∧
      t.len.toNat = bs.length ∧ operandBytes t = bs := by
  have hn : cfg.bufsz = 65544 := rfl
  have hl : (BitVec.ofNat 32 bs.length).toNat = bs.length := by simp only [BitVec.toNat_ofNat]; omega
  refine ⟨{ writeBuf s 0 bs with len := BitVec.ofNat 32 bs.length }, ?_, rfl, hl, ?_⟩
  · rw [loadData, run_wbs hb (by omega), run_wr (by exact hb) (by decide) (by decide), List.tail_drop]
    rfl
  · have e := bufBytes_store (s := s) (t := { writeBuf s 0 bs with len := BitVec.ofNat 32 bs.length }) (i := 0)
      (v := bs) rfl
    rw [operandBytes, lenNat]
    simp only [hl]
    exact e

/-- The checksum of the operand, computed and read back. -/
theorem run_checksumData {p : Word → Prog α} {sched : List Nat} {s : State} (hb : s.status.busy = false)
    (h : s.len.toNat ≤ cfg.bufsz) :
    ∃ t, (checksumData p).run sched s = (p (adler32 (operandBytes s))).run (sched.drop 3) t ∧ SameData s t := by
  have he : exec .csum (accept (encode .csum) s) =
      .next (finish (commandEffect .csum (accept (encode .csum) s))) :=
    exec_of_check_none (i := .csum) (rangeCheck_none.2 h)
  obtain ⟨log, hr⟩ := run_cmd_wait (f := fun _ => rd offCsum p) (sched := sched) hb he
  have hv : regValue { finish (commandEffect .csum (accept (encode .csum) s)) with readLog := log } offCsum =
      adler32 (operandBytes s) := by
    show (BitVec.ofNat 16 (adlerRun adlerInit (operandBytes (accept (encode .csum) s))).2
      ++ BitVec.ofNat 16 (adlerRun adlerInit (operandBytes (accept (encode .csum) s))).1 : BitVec (16 + 16)) = _
    rw [accept_operand, append_eq_adlerValue _ (adlerRun_lt _ _ adlerInit_lt).1]
    rfl
  rw [checksumData, hr, run_rd rfl (by decide) (by decide), hv, List.tail_drop]
  exact ⟨_, rfl, ⟨rfl, rfl, rfl, rfl, rfl, rfl, hb.symm⟩⟩

/-- The operand, read back. -/
theorem run_readData {p : List Byte → Prog α} {sched : List Nat} {s : State} (hb : s.status.busy = false)
    (h : s.len.toNat ≤ cfg.bufsz) :
    ∃ t, (readData p).run sched s = (p (operandBytes s)).run (sched.drop (s.len.toNat + 1)) t ∧ SameData s t := by
  have hv : regValue s offLen = s.len := rfl
  rw [readData, run_rd hb (by decide) (by decide), hv]
  obtain ⟨log, hr⟩ := run_rbs (n := s.len.toNat) (i := 0) (p := p) (sched := sched.tail)
    (s := { s with readLog := s.len :: s.readLog }) hb (by omega)
  refine ⟨{ s with readLog := log }, hr.trans ?_, ⟨rfl, rfl, rfl, rfl, rfl, rfl, rfl⟩⟩
  rw [bufBytes_congr (s := s) (by rfl) (by rfl), List.drop_tail]
  rfl

/-- A command that ends with an error: the program gets the `STATUS` that names it, and only `STATUS`, `PEND` and the
log have changed. -/
theorem run_cmd_wait_error {i : Instr} {e : ErrorKind} {f : Word → Prog α} {sched : List Nat} {s : State}
    (hb : s.status.busy = false) (h : commandCheck i s = some e) :
    ∃ st t, (cmd i (.wait f)).run sched s = (f st).run (sched.drop 2) t ∧ statusError st = some e ∧ SameData s t := by
  have he := exec_of_check_some (i := i) (s := accept (encode i) s) (e := e)
    ((commandCheck_congr (accept_len _ s) (accept_klen _ s) i).trans h)
  obtain ⟨log, hr⟩ := run_cmd_wait (f := f) (sched := sched) hb he
  exact ⟨_, _, hr, statusError_raised _ _, ⟨rfl, rfl, rfl, rfl, rfl, rfl, hb.symm⟩⟩

/-- `ENC` where it executes: the program gets a `STATUS` without error, and the operand is the padded operand,
enciphered. -/
theorem run_enc_wait {f : Word → Prog α} {sched : List Nat} {s : State} (hb : s.status.busy = false)
    (h : encCheck s = none) :
    ∃ st t, (cmd .enc (.wait f)).run sched s = (f st).run (sched.drop 2) t ∧ statusError st = none ∧
      t.status.busy = false ∧ t.status.haz = s.status.haz ∧ t.len.toNat = pad8 s.len.toNat ∧
      operandBytes t = ecbEnc cfg.blockCipher s.key (padded (operandBytes s)) := by
  have he : exec .enc (accept (encode .enc) s) =
      .next (finish (commandEffect .enc (accept (encode .enc) s))) :=
    exec_of_check_none ((commandCheck_congr (accept_len _ s) (accept_klen _ s) .enc).trans h)
  obtain ⟨log, hr⟩ := run_cmd_wait (f := f) (sched := sched) hb he
  have hl := (encCheck_none.1 h).1
  refine ⟨_, _, hr, statusError_completed _, rfl, rfl, encEffect_len_toNat (s := accept (encode .enc) s) hl, ?_⟩
  have e := encEffect_operand (s := accept (encode .enc) s) hl
  rw [accept_operand, accept_key] at e
  exact (operandBytes_congr rfl rfl rfl).trans e

/-- `DEC` where it executes: the program gets a `STATUS` without error, and the operand is deciphered. -/
theorem run_dec_wait {f : Word → Prog α} {sched : List Nat} {s : State} (hb : s.status.busy = false)
    (h : decCheck s = none) :
    ∃ st t, (cmd .dec (.wait f)).run sched s = (f st).run (sched.drop 2) t ∧ statusError st = none ∧
      t.status.busy = false ∧ t.status.haz = s.status.haz ∧ t.len = s.len ∧
      operandBytes t = ecbDec cfg.blockCipher s.key (operandBytes s) := by
  have he : exec .dec (accept (encode .dec) s) =
      .next (finish (commandEffect .dec (accept (encode .dec) s))) :=
    exec_of_check_none ((commandCheck_congr (accept_len _ s) (accept_klen _ s) .dec).trans h)
  obtain ⟨log, hr⟩ := run_cmd_wait (f := f) (sched := sched) hb he
  refine ⟨_, _, hr, statusError_completed _, rfl, rfl, rfl, ?_⟩
  have e := decEffect_operand (s := accept (encode .dec) s) (decCheck_none.1 h).2
  rw [accept_operand, accept_key] at e
  exact (operandBytes_congr rfl rfl rfl).trans e

/-- The wire checksum is the little-endian rendering of the checksum value (40_checksum.md R101). -/
theorem wireChecksum_eq (s : List Byte) : wireChecksum s = toLE32 (adler32 s) := by
  simp [wireChecksum, digest, toBE32]

@[simp] theorem wireChecksum_length (s : List Byte) : (wireChecksum s).length = 4 := by rw [wireChecksum_eq]; rfl

@[simp] theorem innerFrame_length (p : List Byte) : (innerFrame p).length = 2 + p.length := by
  simp [innerFrame]

end Sys2Proof.Machine
end

