-- ==== Sys2Proof/Laws/PerInstr.lean ====
section
/-! SUPPORT. The statements made for every instruction: one lemma per constructor. -/

namespace Sys2Proof.Laws.OneWord

/-- An instruction's fields pass both checks of a command word, its word is its operation code alone (the reserved bits
are 0), and its bytes are one word (30_encoding.md R75, R76, R80). -/
def Statement (i : Instr) : Prop :=
  (encodeFields i).wellFormed = true ∧ (encode i).toNat = (opOf i).toNat ∧ (encodeBytes i).length = 4

theorem csinit : Statement .csinit := by unfold Statement; decide
theorem csupd : Statement .csupd := by unfold Statement; decide
theorem csum : Statement .csum := by unfold Statement; decide
theorem enc : Statement .enc := by unfold Statement; decide
theorem dec : Statement .dec := by unfold Statement; decide
theorem keyclr : Statement .keyclr := by unfold Statement; decide

end Sys2Proof.Laws.OneWord
end

