-- ==== Sys2Proof/Tests/Slice0.lean ====
section
/-! SUPPORT. The model's own tests. Every expected value is the spec's: the vectors V2 to V6 of 95_test_vectors.md, or a word
written out from 30_encoding.md R75 and R76. The last part holds, for each obligation with hypotheses, a concrete state
and operands that meet them together. -/

namespace Sys2Proof.Tests

open Sys2Proof.Machine

/-- The state a step ends in, if it ends in one. -/
def nextOf (o : Host.Outcome State Fault Refusal) : Option State :=
  match o with
  | .next t => some t
  | .fault _ => none
  | .refused _ => none

/-- The reset state with a key, its length, `LEN`, and bytes at the start of the buffer. -/
def small (key : Key) (klen len : Word) (bs : List Byte) : State :=
  { State.reset with key := key, klen := klen, len := len, buf := Memory.storeBytes [] 0 bs }

/-- The key `Z16` of the vectors, and `K1` (95_test_vectors.md section 3). -/
def zeroKey : Key := { k0 := 0, k1 := 0, k2 := 0, k3 := 0 }
def keyK1 : Key := { k0 := 0x03020100, k1 := 0x07060504, k2 := 0x0B0A0908, k3 := 0x0F0E0D0C }

/-- A state with a command pending, and what happens next. -/
def pending (w : Word) (events : List Event) : State :=
  { State.reset with pend := w, status := statusAccepted Status.reset, inputs := events }

/-- The first bytes of the buffer and `STATUS` after a command. -/
def bytesAndStatus (n : Nat) (o : Host.Outcome State Fault Refusal) : Option (List Byte × Word) :=
  (nextOf o).map fun t => (bufBytes t 0 n, statusWord t.status)

/-- `STATUS` after a command. -/
def statusAfter (o : Host.Outcome State Fault Refusal) : Option Word := (nextOf o).map fun t => statusWord t.status

/-! ## Well-formedness: one ill-formed pair of fields for each check -/

theorem test_ill_formed_reserved_bits : CommandFields.wellFormed { op := 0x04, rsv := 1 } = false := by decide
theorem test_ill_formed_op_zero : CommandFields.wellFormed { op := 0x00, rsv := 0 } = false := by decide
theorem test_ill_formed_op_above : CommandFields.wellFormed { op := 0x07, rsv := 0 } = false := by decide
theorem test_well_formed_encodings : ∀ i : Instr, (encodeFields i).wellFormed = true := by
  intro i; cases i <;> decide

/-! ## Decoding: each word bit by bit from R75 (`rsv` 31:8, `op` 7:0) and R76 -/

theorem test_decode_csinit : decodeWord 0b00000000000000000000000000000001#32 = .ok .csinit := by decide
theorem test_decode_csupd : decodeWord 0b00000000000000000000000000000010#32 = .ok .csupd := by decide
theorem test_decode_csum : decodeWord 0b00000000000000000000000000000011#32 = .ok .csum := by decide
theorem test_decode_enc : decodeWord 0b00000000000000000000000000000100#32 = .ok .enc := by decide
theorem test_decode_dec : decodeWord 0b00000000000000000000000000000101#32 = .ok .dec := by decide
theorem test_decode_keyclr : decodeWord 0b00000000000000000000000000000110#32 = .ok .keyclr := by decide

/-- V5.2 to V5.5. -/
theorem test_decode_illegal :
    [(0x00000000 : Word), 0x00000007, 0x000000FF].map decodeWord = List.replicate 3 (.error .opNotAssigned) ∧
    [(0x00000104 : Word), 0x80000003, 0xFFFFFFFF].map decodeWord = List.replicate 3 (.error .reservedBitsSet) := by
  decide

/-- The bytes of `CMD` as the host stores them, and sequences that are not one word (R57, R80). -/
theorem test_decode_bytes :
    decodeBytes [0x04, 0x00, 0x00, 0x00] = .ok .enc ∧ decodeBytes [0x00, 0x00, 0x00, 0x04] = .error .reservedBitsSet ∧
    decodeBytes [] = .error .notOneWord ∧ decodeBytes [0x04, 0, 0] = .error .notOneWord ∧
    decodeBytes [0x04, 0, 0, 0, 0] = .error .notOneWord := by decide

/-! ## The commands, one step each -/

/-- V2.13a. -/
theorem test_csinit : (nextOf (exec .csinit { State.reset with a := 0x0398, b := 0x11E6 })).map
    (fun t => (t.a, t.b, statusWord t.status)) = some (0x0001, 0x0000, 0x02) := by decide

/-- V2.13c: the second block of "Wikipedia" on the accumulators of the first. -/
theorem test_csupd_continues : (nextOf (exec .csupd
    { small zeroKey 0 5 [0x70, 0x65, 0x64, 0x69, 0x61] with a := 0x0195, b := 0x03DA })).map
    (fun t => (t.a, t.b, csumView t)) = some (0x0398, 0x11E6, 0x11E60398) := by decide

/-- V5.15. -/
theorem test_csupd_out_of_range : nextOf (exec .csupd (small zeroKey 0 0xFFFFFFFF [])) =
    some { small zeroKey 0 0xFFFFFFFF [] with
      status := { busy := false, done := true, err := true, haz := false, errcode := 9 } } := by decide

/-- V2.4 with `BUF[3] = 0xFF` beyond `LEN`. -/
theorem test_csum_abc : (nextOf (exec .csum
    { small zeroKey 0 3 [0x61, 0x62, 0x63, 0xFF] with a := 0x0398, b := 0x11E6 })).map
    (fun t => (csumView t, bufBytes t 0 4, statusWord t.status)) =
      some (0x024D0127, [0x61, 0x62, 0x63, 0xFF], 0x02) := by decide

/-- V2.13e, through `step` on a command placed by `withFetchWord`. -/
theorem test_step_csum_of_nothing : (nextOf (step
    (State.withFetchWord { State.reset with a := 0x0398, b := 0x11E6 } 32 3))).map
    (fun t => (csumView t, statusWord t.status)) = some (0x00000001, 0x02) := by decide

/-- V4.13 with the bytes of V4.6: the padding overwrites what lay beyond `LEN`, and `BUF[8]` stays. -/
theorem test_enc_pads : (nextOf (exec .enc
    (small zeroKey 16 5 [0xAA, 0x01, 0x00, 0x00, 0x01, 0x77, 0x77, 0x77, 0x99]))).map
    (fun t => (t.len, bufBytes t 0 9, statusWord t.status)) =
      some (8, [0x1A, 0x59, 0x66, 0x7D, 0x67, 0xC3, 0x64, 0x1D, 0x99], 0x02) := by decide +kernel

/-- V5.7. -/
theorem test_enc_key_size : nextOf (exec .enc (small zeroKey 15 8 [])) =
    some { small zeroKey 15 8 [] with
      status := { busy := false, done := true, err := true, haz := false, errcode := 4 } } := by decide

/-- V4.21: the padding byte is kept. -/
theorem test_dec_keeps_padding : (nextOf (exec .dec
    (small zeroKey 16 8 [0x85, 0x57, 0xEA, 0x3D, 0x22, 0x93, 0x15, 0x8D]))).map
    (fun t => (t.len, bufBytes t 0 8, statusWord t.status)) =
      some (8, [0x05, 0x00, 0xAA, 0x01, 0x00, 0x00, 0x01, 0x00], 0x02) := by decide +kernel

/-- V5.9, V5.11, V5.12. -/
theorem test_dec_errors :
    statusAfter (exec .dec (small zeroKey 16 7 [])) = some 0x56 ∧
    statusAfter (exec .dec (small zeroKey 0 7 [])) = some 0x46 ∧
    statusAfter (exec .dec (small zeroKey 16 65545 [])) = some 0x96 := by decide

/-- V4.30. -/
theorem test_keyclr : nextOf (exec .keyclr { small keyK1 16 8 [0x85] with a := 0x0398, b := 0x11E6 }) =
    some { small zeroKey 0 8 [0x85] with
      a := 0x0398, b := 0x11E6
      status := { busy := false, done := true, err := false, haz := false, errcode := 0 } } := by decide

/-- V5.2: the illegal word 0, accepted and then completed. -/
theorem test_illegal_word : statusAfter (step (pending 0 [.engine])) = some 0x86 := by decide

/-- 92_eei_decisions.md D21: a length that does not fit `KLEN` is not truncated to 16. -/
theorem test_key_length_not_truncated (k : List Byte) (h : k.length = 2 ^ 32 + 16) : (keyLengthWord k).toNat ≠ 16 := by
  rw [ne_eq, keyLengthWord_eq_iff, h]
  decide

/-! ## The host port, reset and the default cipher -/

/-- V5.21: `wr LEN, 5` while busy. -/
theorem test_write_while_busy : nextOf (step (pending 3 [.host (.write .reg 0x08 4 5)])) =
    some { pending 3 [] with status := { busy := true, done := false, err := false, haz := true, errcode := 0 } } := by
  decide

/-- V5.30, V5.35: a key register reads 0, `LEN` reads as written. -/
theorem test_register_reads :
    (nextOf (steps 2 { State.reset with
      inputs := [.host (.write .reg 0x10 4 0x03020100), .host (.read .reg 0x10 4)] })).map
      (fun t => (t.readLog, t.key.k0)) = some ([0], 0x03020100) ∧
    (nextOf (steps 2 { State.reset with
      inputs := [.host (.write .reg 0x08 4 0x12345678), .host (.read .reg 0x08 4)] })).map
      (fun t => t.readLog) = some [0x12345678] := by decide

/-- V5.37, and what a 16-bit read would be on a platform that offers it, lowest offset first (20_memory.md R52). -/
theorem test_buffer_access :
    (nextOf (steps 2 { State.reset with
      inputs := [.host (.write .buf 3 1 0xAB), .host (.read .buf 3 1)] })).map (fun t => t.readLog) = some [0xAB] ∧
    (readBufWord 0 2 (small zeroKey 0 0 [0x34, 0x12])).1 = 0x1234 := by decide

/-- Accesses without a meaning (20_memory.md R51, R52; 10_state.md R42; 93_implementation_defined.md U26). -/
theorem test_refused_accesses :
    accessRefusal .reg 0x08 2 = some .regAccessNotWord ∧ accessRefusal .reg 0x09 4 = some .regAccessMisaligned ∧
    accessRefusal .reg 0x100 4 = some .outsideReg ∧ accessRefusal .buf 0 2 = some .bufAccessWidth ∧
    accessRefusal .buf 65544 1 = some .outsideBuf ∧ accessRefusal .buf 0 4 = some .bufAccessWidth ∧
    accessRefusal .buf 65543 1 = none ∧ accessRefusal .reg 0xFC 4 = none := by decide

/-- V5.43: a reset while busy. -/
theorem test_reset_while_busy :
    nextOf (step { pending 4 [.reset] with key := keyK1, klen := 16, len := 8, buf := [(0, 0x85)] }) =
      some { State.reset with epoch := 1 } := by decide

/-- The reset buffer is in canonical form. -/
theorem test_reset_memory_wf : Memory.wf State.reset.buf := by decide

/-- V3.2, V3.8 and V3.12. -/
theorem test_default_cipher :
    cfg.blockCipher.enc zeroKey (0x04030201, 0x08070605) = (0x8E344261, 0x05404687) ∧
    cfg.blockCipher.enc { k0 := 0x67452301, k1 := 0x78563412, k2 := 0x89674523, k3 := 0x9A785634 }
      (0x04030201, 0x08070605) = (0xAF8011D7, 0x0EC72101) ∧
    ecbDec cfg.blockCipher zeroKey [0, 1, 2, 3, 4, 5, 6, 7] = [0xC2, 0xA5, 0x14, 0xC0, 0x58, 0x4F, 0x6C, 0x6A] := by
  decide +kernel

/-- P1 (95_test_vectors.md section 6): the frame of `AA 01 00 00 01` under `Z16`, and its `is_valid`. -/
theorem test_codec_frame :
    encodeFrame [0xAA, 0x01, 0x00, 0x00, 0x01] (some (List.replicate 16 0)) defaultFlags =
      .ok [0x0C, 0x00, 0x5B, 0x03, 0x36, 0x10, 0x85, 0x57, 0xEA, 0x3D, 0x22, 0x93, 0x15, 0x8D] ∧
    isValidFrame [0x0C, 0x00, 0x5B, 0x03, 0x36, 0x10, 0x85, 0x57, 0xEA, 0x3D, 0x22, 0x93, 0x15, 0x8D] = true ∧
    isValidFrame [0x0C, 0x00, 0x5B, 0x03, 0x36, 0x10, 0x84, 0x57, 0xEA, 0x3D, 0x22, 0x93, 0x15, 0x8D] = false := by
  decide +kernel

/-- R157 with R152 step 6: the wire variant without checksum and cipher carries its whole body, and the packet has the
default flags. -/
theorem test_decode_returns_the_default_flags :
    decodeFrame [0x01, 0x00, 0xAA] none true { defaultFlags with cipherEnabled := false, checksumEnabled := false } =
      .ok { payload := [0xAA], key := none, flags := defaultFlags } := by rfl

/-! ## Witnesses: states and operands that meet the hypotheses of the obligations -/

theorem witness_DecodeAndEncodeAgreeOnBytes :
    Instr.wellFormed .enc = true ∧ decodeBytes [0x05, 0, 0, 0] = .ok .dec := by decide

theorem witness_StepRunsThePendingCommand :
    ((pending 4 []).status.busy = true ∧ decodeWord (pending 4 []).pend = .ok .enc ∧ (pending 4 []).inputs = []) ∧
    ((pending 6 [.engine, .engine]).status.busy = true ∧ decodeWord (pending 6 [.engine, .engine]).pend = .ok .keyclr ∧
      (pending 6 [.engine, .engine]).inputs = .engine :: [.engine]) := by decide

theorem witness_PlacedCommandRunsNext : decodeTableWord 32 1 = some .csinit ∧ decodeTableWord 32 6 = some .keyclr := by
  decide

theorem witness_CommandWriteIsAcceptedWhileIdle :
    State.reset.status.busy = false ∧ (pending 3 []).status.busy = true := by decide

theorem witness_IllegalWordCompletesWithIllegalCommand :
    ((7 : Word) ∉ [(1 : Word), 2, 3, 4, 5, 6]) ∧ ((0 : Word) ∉ [(1 : Word), 2, 3, 4, 5, 6]) ∧
    State.reset.status.busy = false ∧
    ({ State.reset with inputs := [.host (.write .reg 0x00 4 7), .engine] } : State).inputs =
      .host (.write .reg 0x00 4 7) :: .engine :: [] := by decide

/-- The boundary of the range check: 65544 fits, 65545 does not. -/
theorem witness_CsupdContinuesTheChecksum :
    (small zeroKey 0 65544 []).len.toNat ≤ 65544 ∧ 65544 < (small zeroKey 0 65545 []).len.toNat := by decide

theorem witness_CsumIsTheOneShotChecksum :
    (small zeroKey 0 65544 []).len.toNat ≤ 65544 ∧ 65544 < (small zeroKey 0 65545 []).len.toNat := by decide

/-- `LEN` at its least, at its largest, and one that needs padding. -/
theorem witness_EncEnciphersThePaddedOperand :
    ((small keyK1 16 0 []).len.toNat ≤ 65544 ∧ (small keyK1 16 0 []).klen = 16) ∧
    ((small keyK1 16 5 []).len.toNat ≤ 65544 ∧ (small keyK1 16 5 []).klen = 16) ∧
    ((small keyK1 16 65537 []).len.toNat ≤ 65544 ∧ (small keyK1 16 65537 []).klen = 16) ∧
    ((small keyK1 16 65544 []).len.toNat ≤ 65544 ∧ (small keyK1 16 65544 []).klen = 16) := by decide

theorem witness_EncEnciphersThePaddedOperand_clauses :
    pad8 (small keyK1 16 5 []).len.toNat ≤ 8 ∧ 8 * 0 < pad8 (small keyK1 16 5 []).len.toNat ∧
    8 * 8192 < pad8 (small keyK1 16 65537 []).len.toNat ∧ 65544 < (small keyK1 0 65545 []).len.toNat ∧
    ((small keyK1 17 65544 []).len.toNat ≤ 65544 ∧ (small keyK1 17 65544 []).klen ≠ 16) := by decide

theorem witness_DecDeciphersTheOperand :
    ((small keyK1 16 0 []).len.toNat ≤ 65544 ∧ (small keyK1 16 0 []).klen = 16 ∧
      (small keyK1 16 0 []).len.toNat % 8 = 0) ∧
    ((small keyK1 16 8 []).len.toNat ≤ 65544 ∧ (small keyK1 16 8 []).klen = 16 ∧
      (small keyK1 16 8 []).len.toNat % 8 = 0) ∧
    ((small keyK1 16 65544 []).len.toNat ≤ 65544 ∧ (small keyK1 16 65544 []).klen = 16 ∧
      (small keyK1 16 65544 []).len.toNat % 8 = 0) := by decide

theorem witness_DecDeciphersTheOperand_clauses :
    (small keyK1 16 8 []).len.toNat ≤ 8 ∧ 8 * 8192 < (small keyK1 16 65544 []).len.toNat ∧
    65544 < (small keyK1 16 65545 []).len.toNat ∧
    ((small keyK1 15 65543 []).len.toNat ≤ 65544 ∧ (small keyK1 15 65543 []).klen ≠ 16) ∧
    ((small keyK1 16 65543 []).len.toNat ≤ 65544 ∧ (small keyK1 16 65543 []).klen = 16 ∧
      (small keyK1 16 65543 []).len.toNat % 8 ≠ 0) := by decide

theorem witness_KeyclrErasesTheKey :
    (small zeroKey 0 65544 []).klen ≠ 16 ∧ (small zeroKey 0 65544 []).len.toNat ≤ 65544 := by decide

theorem witness_ErrorsAreReportedInPriorityOrder :
    decodeWord (pending 0 []).pend = .error .opNotAssigned ∧ 65544 < (small zeroKey 0 65545 []).len.toNat ∧
    ((small zeroKey 17 65544 []).len.toNat ≤ 65544 ∧ (small zeroKey 17 65544 []).klen ≠ 16) ∧
    ((small zeroKey 16 65543 []).len.toNat ≤ 65544 ∧ (small zeroKey 16 65543 []).klen = 16 ∧
      (small zeroKey 16 65543 []).len.toNat % 8 ≠ 0) := by decide

/-- `ENC` in the reset state ends with an error (V5.6): the hypotheses of `AnErrorChangesOnlyStatus` and of
`ReissuedCommandGivesTheSameError`. -/
theorem witness_AnErrorChangesOnlyStatus :
    ∃ t, exec .enc State.reset = .next t ∧ t.status.err = true := ⟨_, rfl, rfl⟩

theorem witness_ReissuedCommandGivesTheSameError :
    ∃ t, exec .enc State.reset = .next t ∧ t.status.err = true := ⟨_, rfl, rfl⟩

theorem witness_EachRegisterChangesOnlyByItsCommands :
    ∃ t, exec .keyclr (small keyK1 16 8 [1]) = .next t ∧ (Instr.keyclr ≠ .csinit ∧ Instr.keyclr ≠ .enc) :=
  ⟨_, rfl, by decide⟩

/-- A state with the invariant that is not the reset state, and a step from it. -/
theorem witness_EveryStepKeepsTheInvariant :
    ∃ t, Inv { small keyK1 16 8 [0x85, 0x57] with status := statusRaised .invalidKeySize Status.reset } ∧
      step { small keyK1 16 8 [0x85, 0x57] with status := statusRaised .invalidKeySize Status.reset } = .next t :=
  ⟨_, by constructor <;> decide, rfl⟩

theorem witness_HazardIsStickyUntilReset :
    ∃ t, step { pending 1 [] with status := statusHazard (statusAccepted Status.reset) } = .next t ∧
      ({ pending 1 [] with status := statusHazard (statusAccepted Status.reset) } : State).status.haz = true ∧
      ({ pending 1 [] with status := statusHazard (statusAccepted Status.reset) } : State).inputs.head? ≠ some .reset :=
  ⟨_, rfl, by decide, by decide⟩

theorem witness_ResetEventRestoresTheResetState : (pending 4 [.reset, .engine]).inputs = .reset :: [.engine] := by decide

theorem witness_RegisterReadsWhileIdle :
    State.reset.status.busy = false ∧ (∀ off ∈ [0x24, 0x28, 0xFC], 0x24 ≤ off ∧ off < 0x100 ∧ off % 4 = 0) := by decide

theorem witness_RegisterWritesWhileIdle :
    State.reset.status.busy = false ∧ (∀ off ∈ [0x24, 0x28, 0xFC], 0x24 ≤ off ∧ off < 0x100 ∧ off % 4 = 0) := by decide

theorem witness_WritesWhileBusyAreDropped :
    (pending 3 []).status.busy = true ∧ accessRefusal .reg 0x00 4 = none ∧ accessRefusal .reg 0xFC 4 = none ∧
    accessRefusal .buf 0 1 = none ∧ accessRefusal .buf 65543 1 = none := by decide

theorem witness_ReadsWhileBusy :
    (pending 3 []).status.busy = true ∧
    (∀ off ∈ [0x00, 0x10, 0x1C, 0x24, 0xFC], off < 0x100 ∧ off % 4 = 0 ∧ off ≠ 0x04 ∧ off ≠ 0x08 ∧ off ≠ 0x0C ∧
      off ≠ 0x20) ∧ 0 < 65544 ∧ 65543 < 65544 := by decide

/-- A busy state with the invariant, and `HAZ` set. -/
theorem witness_ReadsWhileBusy_invariant :
    Inv { pending 3 [] with status := statusHazard (statusAccepted Status.reset) } := by constructor <;> decide

theorem witness_BufferWriteThenRead : State.reset.status.busy = false ∧ 0 < 65544 ∧ 65543 < 65544 ∧ 65542 ≠ 65543 := by
  decide

theorem witness_IdleReadsAreIdempotent :
    ∃ v t, State.reset.status.busy = false ∧ perform (.read .buf 65543 1) State.reset = .next (v, t) :=
  ⟨_, _, by decide, perform_read_byte (by decide) (by decide)⟩

theorem witness_PendingCommandKeepsItsOperands :
    ∃ t, (pending 3 []).status.busy = true ∧ hostAccess (.write .buf 0 1 0x55) (pending 3 []) = .next t :=
  ⟨_, by decide, rfl⟩

theorem witness_WaitEndsWithTheCompletionStatus : (pending 3 []).status.busy = true := by decide

theorem witness_WaitRuleKeepsHazardClear :
    ∃ t, (pending 1 [.host statusRead, .engine]).status.haz = false ∧
      ((pending 1 [.host statusRead, .engine]).status.busy = true → true = true) ∧
      obeysWaitRule 2 true (pending 1 [.host statusRead, .engine]) = true ∧
      steps 2 (pending 1 [.host statusRead, .engine]) = .next t := ⟨_, by decide, by decide, by decide, rfl⟩

theorem witness_UnpolledAccessBreaksTheWaitRule : State.reset.status.busy = false := by decide

theorem witness_WideBufferAccessIsItsByteAccesses : State.reset.status.busy = false ∧ 2 ∈ [2, 4] ∧ 4 ∈ [2, 4] := by decide

theorem witness_CompletionBeforeOrAfterAnAccess :
    ∃ t, State.reset.status.busy = false ∧
      exec .keyclr (accept (encode .keyclr) { State.reset with klen := 16 }) = .next t := ⟨_, by decide, rfl⟩

/-- A step that keeps the buffer whatever the key: one that is no `ENC` or `DEC`, an `ENC` that raises, and one that
completes `ENC`. -/
theorem witness_KeyReachesOnlyTheBuffer :
    (∃ t, step (pending 6 []) = .next t ∧
      ¬ ((pending 6 []).pend = encode .enc ∨ (pending 6 []).pend = encode .dec)) ∧
    (∃ t, step (pending 4 []) = .next t ∧ (pending 4 []).klen ≠ 16) ∧
    (∃ t, step { pending 4 [] with klen := 16 } = .next t ∧
      completesCommand { pending 4 [] with klen := 16 } = true ∧ pad8 (pending 4 []).len.toNat ≤ 0) :=
  ⟨⟨_, rfl, by decide⟩, ⟨_, rfl, by decide⟩, ⟨_, rfl, by decide, by decide⟩⟩

theorem witness_ChecksumIsIncremental :
    let s1 := small zeroKey 0 4 [0x57, 0x69, 0x6B, 0x69]
    let s2 := small zeroKey 0 5 [0x70, 0x65, 0x64, 0x69, 0x61]
    let u := small zeroKey 0 9 [0x57, 0x69, 0x6B, 0x69, 0x70, 0x65, 0x64, 0x69, 0x61]
    s1.len.toNat ≤ 65544 ∧ s2.len.toNat ≤ 65544 ∧ u.len.toNat ≤ 65544 ∧
    operandBytes s1 = [0x57, 0x69, 0x6B, 0x69] ∧ operandBytes s2 = [0x70, 0x65, 0x64, 0x69, 0x61] ∧
    operandBytes u = [0x57, 0x69, 0x6B, 0x69] ++ [0x70, 0x65, 0x64, 0x69, 0x61] := by decide

theorem witness_OneByteChangeChangesTheChecksum : (0 : Byte) ≠ 0xFF ∧ (0 : Byte) ≠ 1 := by decide

/-- A block cipher with property P2 (any inverse pair of functions of a block is one), and whole blocks. -/
theorem witness_EcbRoundTripRestoresThePaddedInput :
    BlockCipher.Inverse { enc := fun K v => (v.2 ^^^ K.k0, v.1), dec := fun K v => (v.2, v.1 ^^^ K.k0) } ∧
    ([1, 2, 3, 4, 5, 6, 7, 8] : List Byte).length % 8 = 0 := by
  refine ⟨⟨fun K v => ?_, fun K v => ?_⟩, by decide⟩ <;> simp

theorem witness_EncThenDecRestoresThePaddedOperand :
    ((small keyK1 16 0 []).len.toNat ≤ 65544 ∧ (small keyK1 16 0 []).klen = 16) ∧
    ((small keyK1 16 1 []).len.toNat ≤ 65544 ∧ (small keyK1 16 1 []).klen = 16) ∧
    ((small keyK1 16 7 []).len.toNat ≤ 65544 ∧ (small keyK1 16 7 []).klen = 16) ∧
    ((small keyK1 16 65544 []).len.toNat ≤ 65544 ∧ (small keyK1 16 65544 []).klen = 16) := by decide

theorem witness_DecThenEncRestoresTheOperand :
    ((small keyK1 16 0 []).len.toNat ≤ 65544 ∧ (small keyK1 16 0 []).klen = 16 ∧
      (small keyK1 16 0 []).len.toNat % 8 = 0) ∧
    ((small keyK1 16 8 []).len.toNat ≤ 65544 ∧ (small keyK1 16 8 []).klen = 16 ∧
      (small keyK1 16 8 []).len.toNat % 8 = 0) ∧
    ((small keyK1 16 65544 []).len.toNat ≤ 65544 ∧ (small keyK1 16 65544 []).klen = 16 ∧
      (small keyK1 16 65544 []).len.toNat % 8 = 0) := by decide

theorem witness_EncOfPaddedEqualsEncOfPlain :
    let s := small keyK1 16 1 [0x41]
    let s' := small keyK1 16 8 [0x41, 0, 0, 0, 0, 0, 0, 0]
    s.len.toNat ≤ 65544 ∧ s.klen = 16 ∧ s'.klen = 16 ∧ s'.key = s.key ∧ s'.len.toNat = pad8 s.len.toNat ∧
    (∀ i, i < s.len.toNat → bufByte s' i = bufByte s i) ∧
    (∀ i, s.len.toNat ≤ i → i < pad8 s.len.toNat → bufByte s' i = 0) := by
  refine ⟨by decide, by decide, by decide, by decide, by decide, by decide, fun i h h' => ?_⟩
  have h1 : i < 8 := h'
  have h2 : ∀ j : Fin 8, 1 ≤ j.val → bufByte (small keyK1 16 8 [0x41, 0, 0, 0, 0, 0, 0, 0]) j.val = 0 := by decide
  exact h2 ⟨i, h1⟩ h

theorem witness_LargestPayloadsThatEncode : (List.replicate 16 (0 : Byte)).length = 16 := by decide

theorem witness_FinalizeResolvesTheKey :
    ({ newEmpty with key := some [1] } : Packet).key = some [1] ∧ newEmpty.key = none ∧
    ({ newEmpty with flags := { defaultFlags with cipherEnabled := false } } : Packet).flags.cipherEnabled = false ∧
    (newEmpty.key = none ∧ (none : Option (List Byte)) = none) := ⟨rfl, rfl, rfl, rfl, rfl⟩

theorem witness_IsValidSequenceComputesIsValid : State.reset.status.busy = false := by decide

theorem witness_EncodeSequenceComputesEncode : State.reset.status.busy = false := by decide

theorem witness_DecodeSequenceComputesDecode : State.reset.status.busy = false := by decide

theorem witness_CodecRoundTrip :
    (List.replicate 65526 (1 : Byte)).length ≤ 65526 ∧ ([] : List Byte).length ≤ 65526 ∧
    (List.replicate 16 (0 : Byte)).length = 16 ∧ State.reset.status.busy = false := by
  refine ⟨by rw [List.length_replicate], by decide, by decide, by decide⟩

end Sys2Proof.Tests
end

section
/-! PROOFS. Facts about operations of the model that the family 10_state.md and later proofs use. -/

namespace Sys2Proof.Machine

/-! ### Bit vectors -/

/-- A concatenation as a number: the high part above the low one. -/
theorem toNat_append_eq_add {m n : Nat} (x : BitVec m) (y : BitVec n) :
    (x ++ y).toNat = x.toNat * 2 ^ n + y.toNat := by
  rw [BitVec.toNat_append, ← Nat.shiftLeft_add_eq_or_of_lt y.isLt, Nat.shiftLeft_eq]

/-! ### The *complete* step of a word that decodes -/

/-- Every command's word decodes to it (30_encoding.md R76, R77). -/
theorem decodeWord_encode (i : Instr) : decodeWord (encode i) = .ok i := by
  cases i <;> decide

theorem completeStep_of_decode {s : State} {i : Instr} (h : decodeWord s.pend = .ok i) :
    completeStep s = exec i s := by
  rw [completeStep, h]

/-! ### The host port -/

/-- A write that has a meaning and arrives while busy is dropped (70_reset_and_hazards.md R195). -/
theorem perform_write_busy {s : State} (hb : s.status.busy = true) {sp : Space} {off width : Nat}
    (h : accessRefusal sp off width = none) (v : Word) :
    perform (.write sp off width v) s = .next (0, dropWrite s) := by
  simp [perform, h, hb]

theorem perform_read_reg_of_value {s : State} (hb : s.status.busy = false) {off : Nat} (h4 : off % 4 = 0)
    (hlt : off < regSpan) {v : Word} (hv : regValue s off = v) :
    perform (.read .reg off 4) s = .next (v, { s with readLog := v :: s.readLog }) := by
  rw [perform_read_reg hb h4 hlt, hv]

theorem hostAccess_write_reg {s : State} (hb : s.status.busy = false) {off : Nat} (h4 : off % 4 = 0)
    (hlt : off < regSpan) (v : Word) : hostAccess (.write .reg off 4 v) s = .next (writeReg off v s) :=
  hostAccess_eq_next.2 ⟨0, perform_write_reg hb h4 hlt v⟩

/-- Reserved offsets read 0 (10_state.md R42). -/
theorem regValue_reserved (s : State) {off : Nat} (h : 0x24 ≤ off) : regValue s off = 0 := by
  have hne {r : Nat} (hr : r < 0x24) : off ≠ r := by omega
  rw [regValue, if_neg (hne (by decide)), if_neg (hne (by decide)), if_neg (hne (by decide)),
    if_neg (hne (by decide))]

/-- A write to a reserved offset is ignored (10_state.md R42). -/
theorem writeReg_reserved (v : Word) (s : State) {off : Nat} (h : 0x24 ≤ off) : writeReg off v s = s := by
  have hne {r : Nat} (hr : r < 0x24) : off ≠ r := by omega
  rw [writeReg, if_neg (hne (by decide)), if_neg (hne (by decide)), if_neg (hne (by decide)),
    if_neg (hne (by decide)), if_neg (hne (by decide)), if_neg (hne (by decide)), if_neg (hne (by decide))]

/-! ### Host programs around a pending command -/

section
variable {α : Type}

/-- `wr` (R89) with a command pending and no turn before it: the write is dropped. -/
theorem run_wr_dropped {off : Nat} {v : Word} {p : Prog α} {sched : List Nat} {s : State}
    (hb : s.status.busy = true) (h4 : off % 4 = 0) (hlt : off < regSpan) :
    (wr off v p).run (0 :: sched) s = p.run sched (dropWrite s) :=
  run_access_of_turn (by rfl) (perform_write_busy hb (accessRefusal_reg_none.2 ⟨rfl, h4, hlt⟩) v)

/-- `wr` (R89) with a command pending that completes just before it: the write is an ordinary one. -/
theorem run_wr_after_completion {off : Nat} {v : Word} {p : Prog α} {sched : List Nat} {s t : State}
    (hb : s.status.busy = true) (hc : completeStep s = .next t) (h4 : off % 4 = 0) (hlt : off < regSpan) :
    (wr off v p).run (1 :: sched) s = p.run sched (writeReg off v t) :=
  run_access_of_turn ((engineTurn_busy hb).trans hc)
    (perform_write_reg (completeStep_idle hc).1 h4 hlt v)

/-- `wait` (R89) with a command pending: the rest gets the `STATUS` the completed command left. -/
theorem run_wait_busy {f : Word → Prog α} {sched : List Nat} {s t : State} (hb : s.status.busy = true)
    (hc : completeStep s = .next t) :
    ∃ log, (Prog.wait f).run sched s = (f (statusWord t.status)).run sched.tail { t with readLog := log } := by
  obtain ⟨log, hw⟩ := waitIdle_busy (sched.headD 0) hb hc
  exact ⟨log, by simp only [Prog.run, hw]⟩

/-- `wait` (R89) with no command pending: one read of `STATUS`. -/
theorem run_wait_idle {f : Word → Prog α} {sched : List Nat} {s : State} (hb : s.status.busy = false) :
    (Prog.wait f).run sched s =
      (f (statusWord s.status)).run sched.tail { s with readLog := statusWord s.status :: s.readLog } := by
  simp only [Prog.run, waitIdle_idle _ hb]

end

end Sys2Proof.Machine
end

section
/-! PROOFS. The invariant of 10_state.md R44 in three parts, of the accumulators, of `STATUS` and of the buffer: what each
operation does to each part, and that every step keeps the whole. -/

namespace Sys2Proof.Machine

/-- R44 (i) of a state: both accumulators are residues. -/
def AccumulatorsReduced (s : State) : Prop := s.a.toNat < cfg.adlerMod ∧ s.b.toNat < cfg.adlerMod

/-- R44 (ii) to (v), of the `STATUS` fields. -/
structure StatusInv (st : Status) : Prop where
  not_busy_done : ¬ (st.busy = true ∧ st.done = true)
  err_done : st.err = true → st.done = true
  errcode_iff : st.errcode = 0 ↔ st.err = false
  errcode_mem : st.errcode = 0 ∨ st.errcode = 4 ∨ st.errcode = 5 ∨ st.errcode = 8 ∨ st.errcode = 9

/-- The buffer's list is in canonical form, and inside the buffer. -/
structure BufInv (m : Memory) : Prop where
  wf : Memory.wf m
  extent : ∀ c ∈ m, c.1 < cfg.bufsz

theorem inv_iff {s : State} : Inv s ↔ AccumulatorsReduced s ∧ StatusInv s.status ∧ BufInv s.buf := by
  constructor
  · rintro ⟨ha, hb, h2, h3, h4, h5, hw, he⟩
    exact ⟨⟨ha, hb⟩, ⟨h2, h3, h4, h5⟩, ⟨hw, he⟩⟩
  · rintro ⟨⟨ha, hb⟩, ⟨h2, h3, h4, h5⟩, ⟨hw, he⟩⟩
    exact ⟨ha, hb, h2, h3, h4, h5, hw, he⟩

/-- The invariant depends on `A`, `B`, `STATUS` and `BUF` alone. -/
theorem Inv.congr {s t : State} (h : Inv s) (ha : t.a = s.a) (hb : t.b = s.b) (hst : t.status = s.status)
    (hm : t.buf = s.buf) : Inv t := by
  rw [inv_iff, AccumulatorsReduced] at h ⊢
  rwa [ha, hb, hst, hm]

/-- An operation that keeps `A`, `B` and `BUF` keeps the invariant if its `STATUS` has it. -/
theorem Inv.of_status {s t : State} (h : Inv s) (ha : t.a = s.a) (hb : t.b = s.b) (hm : t.buf = s.buf)
    (hst : StatusInv t.status) : Inv t := by
  rw [inv_iff, AccumulatorsReduced] at h ⊢
  rw [ha, hb, hm]
  exact ⟨h.1, hst, h.2.2⟩

/-! ### `STATUS` -/

/-- Acceptance (30_encoding.md R85). -/
theorem statusInv_accepted (st : Status) : StatusInv (statusAccepted st) := by constructor <;> simp

/-- Completion without error (30_encoding.md R86). -/
theorem statusInv_completed (st : Status) : StatusInv (statusCompleted st) := by constructor <;> simp

/-- An error the engine raises has one of the codes 4, 5, 8 and 9 (60_exceptions.md R166). -/
theorem errorCode_of_engine {e : ErrorKind} (h : EngineError e ∨ e = .illegalCommand) :
    errorCode e = 4 ∨ errorCode e = 5 ∨ errorCode e = 8 ∨ errorCode e = 9 := by
  rcases h with (rfl | rfl | rfl) | rfl <;> decide

/-- Completion with an error the engine raises (60_exceptions.md R166, R171). -/
theorem statusInv_raised {e : ErrorKind} (h : EngineError e ∨ e = .illegalCommand) (st : Status) :
    StatusInv (statusRaised e st) where
  not_busy_done := by simp
  err_done := by simp
  errcode_iff := by
    rcases errorCode_of_engine h with hc | hc | hc | hc <;> simp [hc]
  errcode_mem := .inr (errorCode_of_engine h)

/-- A dropped write sets `HAZ`, of which the invariant does not speak (70_reset_and_hazards.md R195). -/
theorem StatusInv.hazard {st : Status} (h : StatusInv st) : StatusInv (statusHazard st) :=
  ⟨h.not_busy_done, h.err_done, h.errcode_iff, h.errcode_mem⟩

/-! ### The buffer -/

/-- Storing inside the buffer keeps its form and its extent. -/
theorem BufInv.storeBytes {m : Memory} (h : BufInv m) {i : Nat} {v : List Byte} (hi : i + v.length ≤ cfg.bufsz) :
    BufInv (Memory.storeBytes m i v) :=
  ⟨storeBytes_wf v m i h.wf, storeBytes_extent v m i _ h.extent hi⟩

theorem Inv.writeBuf {s : State} (h : Inv s) {i : Nat} {v : List Byte} (hi : i + v.length ≤ cfg.bufsz) :
    Inv (writeBuf s i v) := by
  rw [inv_iff] at h ⊢
  obtain ⟨hacc, hst, hbuf⟩ := h
  exact ⟨hacc, hst, hbuf.storeBytes hi⟩

/-! ### The accumulators -/

theorem toNat_ofNat_adler {n : Nat} (h : n < cfg.adlerMod) : (BitVec.ofNat 16 n).toNat = n := by
  have hm : cfg.adlerMod = 65521 := rfl
  rw [BitVec.toNat_ofNat]
  omega

theorem Inv.setAccumulators {s : State} (h : Inv s) {p : Nat × Nat}
    (hp : p.1 < cfg.adlerMod ∧ p.2 < cfg.adlerMod) : Inv (setAccumulators p s) := by
  rw [inv_iff] at h ⊢
  obtain ⟨-, hst, hbuf⟩ := h
  refine ⟨⟨?_, ?_⟩, hst, hbuf⟩
  · rw [setAccumulators_a, toNat_ofNat_adler hp.1]; exact hp.1
  · rw [setAccumulators_b, toNat_ofNat_adler hp.2]; exact hp.2

/-! ### The commands and the engine's turn -/

/-- The effect of a command whose check names no error: `CSINIT`, `CSUPD` and `CSUM` leave residues, and `ENC` and `DEC`
store inside the buffer. -/
theorem Inv.commandEffect {s : State} (h : Inv s) {i : Instr} (hc : commandCheck i s = none) :
    Inv (commandEffect i s) := by
  cases i with
  | csinit => exact h.setAccumulators adlerInit_lt
  | csupd => exact h.setAccumulators (adlerRun_lt _ _ ⟨h.a_lt, h.b_lt⟩)
  | csum => exact h.setAccumulators (adlerRun_lt _ _ adlerInit_lt)
  | enc =>
    have hlen : s.len.toNat ≤ cfg.bufsz := (encCheck_none.1 hc).1
    refine (h.writeBuf (i := 0) (v := ecbEnc cfg.blockCipher s.key (padded (operandBytes s))) ?_).congr
      rfl rfl rfl rfl
    rw [ecbEnc_operand_length, Nat.zero_add]
    exact pad8_le_bufsz hlen
  | dec =>
    obtain ⟨⟨hlen, -⟩, hmod⟩ := decCheck_none.1 hc
    refine h.writeBuf ?_
    rw [ecbDec_operand_length _ _ hmod, Nat.zero_add]
    exact hlen
  | keyclr => exact h.congr rfl rfl rfl rfl

theorem Inv.finish {s : State} (h : Inv s) : Inv (finish s) :=
  h.of_status rfl rfl rfl (statusInv_completed _)

theorem Inv.raise {s : State} (h : Inv s) {e : ErrorKind} (he : EngineError e ∨ e = .illegalCommand) :
    Inv (raise e s) :=
  h.of_status rfl rfl rfl (statusInv_raised he _)

theorem Inv.engineTurn {s t : State} (h : Inv s) (ht : engineTurn s = .next t) : Inv t := by
  rcases engineTurn_cases ht with ⟨-, rfl⟩ | ⟨-, e, he, rfl⟩ | ⟨-, i, -, hc, rfl⟩
  · exact h
  · exact h.raise he
  · exact (h.commandEffect hc).finish

/-! ### The host's accesses and the reset -/

/-- A write performed while idle: a register write touches no part of the invariant unless it issues a command, and a
buffer write that has a meaning lies inside the buffer. -/
theorem Inv.writeSpace {s : State} (h : Inv s) {sp : Space} {off width : Nat}
    (hr : accessRefusal sp off width = none) (v : Word) : Inv (writeSpace sp off width v s) := by
  cases sp with
  | reg =>
    rw [Machine.writeSpace]
    rcases writeReg_cases off v s with hw | hw | ⟨key, klen, len, hw⟩ <;> rw [hw]
    · exact h.of_status rfl rfl rfl (statusInv_accepted _)
    · exact h
    · exact h.congr rfl rfl rfl rfl
  | buf =>
    obtain ⟨hin, -⟩ := accessRefusal_buf_none hr
    refine h.writeBuf ?_
    have hlen := List.length_take_le width (toLE32 v)
    omega

theorem Inv.hostAccess {acc : Access} {s t : State} (h : Inv s) (ht : hostAccess acc s = .next t) : Inv t := by
  rcases hostAccess_cases ht with ⟨-, -, -, -, -, -, ht⟩ | ⟨sp, off, width, v, -, hr, ⟨-, rfl⟩ | ⟨-, rfl⟩⟩
  · rw [ht]; exact h.congr rfl rfl rfl rfl
  · exact h.of_status rfl rfl rfl (inv_iff.1 h).2.1.hazard
  · exact h.writeSpace hr v

theorem inv_reset : Inv State.reset := by constructor <;> decide

/-- A reset meets the invariant whatever the state before it. -/
theorem inv_platformReset (s : State) : Inv (platformReset s) := inv_reset.congr rfl rfl rfl rfl

/-- Settles O20: a step is an engine's turn, an access of the host or a reset, and each keeps the invariant. -/
theorem everyStepKeepsTheInvariant : Obligations.EveryStepKeepsTheInvariant := by
  intro s t h ht
  have hin (rest : List Event) : Inv { s with inputs := rest } := h.congr rfl rfl rfl rfl
  rcases step_cases ht with ⟨-, ht⟩ | ⟨acc, rest, -, ht⟩ | ⟨rest, -, ht⟩ | ⟨rest, -, rfl⟩
  · exact h.engineTurn ht
  · exact (hin rest).hostAccess ht
  · exact (hin rest).engineTurn ht
  · exact inv_platformReset _

end Sys2Proof.Machine
end

section
/-! PROOFS. `HAZ` is sticky (10_state.md R28, R44 (vi)). -/

namespace Sys2Proof.Machine

/-- No turn of the engine changes `HAZ`. -/
theorem engineTurn_haz {s t : State} (h : engineTurn s = .next t) : t.status.haz = s.status.haz := by
  rcases engineTurn_cases h with ⟨-, rfl⟩ | ⟨-, e, -, rfl⟩ | ⟨-, i, -, -, rfl⟩
  · rfl
  · rfl
  · rw [finish_status, (commandEffect_frame i s).1, statusCompleted_haz]

/-- A write performed while idle does not change `HAZ`. -/
theorem writeSpace_haz (sp : Space) (off width : Nat) (v : Word) (s : State) :
    (writeSpace sp off width v s).status.haz = s.status.haz := by
  cases sp with
  | reg =>
    rw [writeSpace]
    rcases writeReg_cases off v s with hw | hw | ⟨key, klen, len, hw⟩
    · rw [hw, accept_status, statusAccepted_haz]
    · rw [hw]
    · rw [hw]
  | buf => rfl

/-- No access of the host clears `HAZ`. -/
theorem hostAccess_keeps_haz {acc : Access} {s t : State} (h : hostAccess acc s = .next t)
    (hz : s.status.haz = true) : t.status.haz = true := by
  rcases hostAccess_cases h with ⟨-, -, -, -, -, -, ht⟩ | ⟨sp, off, width, v, -, -, ⟨-, rfl⟩ | ⟨-, rfl⟩⟩
  · rw [ht]; exact hz
  · rfl
  · rwa [writeSpace_haz]

/-- Settles O22: of the four things a step is, only the reset clears `HAZ`, and it is excluded. -/
theorem hazardIsStickyUntilReset : Obligations.HazardIsStickyUntilReset := by
  intro s t h hz hnr
  rcases step_cases h with ⟨-, h⟩ | ⟨acc, rest, -, h⟩ | ⟨rest, -, h⟩ | ⟨rest, hi, -⟩
  · rwa [engineTurn_haz h]
  · exact hostAccess_keeps_haz h hz
  · rwa [engineTurn_haz h]
  · exact absurd (by rw [hi]; rfl) hnr

end Sys2Proof.Machine
end

section
/-! PROOFS. The pending command: a step that runs it (10_state.md R20), and its completion before or after an access of
the host (95_test_vectors.md P5). -/

namespace Sys2Proof.Machine

/-- Settles O39: in the first schedule the write finds the engine busy, is dropped, and the command then completes as it
would have; in the second the command completes first and the write finds the engine idle. -/
theorem completionBeforeOrAfterAnAccess : Obligations.CompletionBeforeOrAfterAnAccess := by
  intro i s t v polls hb h program
  have hissue (sched : List Nat) : program.run (0 :: sched) s =
      (wr offLen v (.wait fun st => .done st)).run sched (accept (encode i) s) :=
    run_wr hb (by decide) (by decide)
  have hd : decodeWord (accept (encode i) s).pend = .ok i := decodeWord_encode i
  constructor
  · have hc : completeStep (dropWrite (accept (encode i) s)) = .next (dropWrite t) := by
      rw [completeStep_of_decode (by rw [dropWrite_pend, hd]), exec_dropWrite h]
    obtain ⟨log, hw⟩ := run_wait_busy (f := Prog.done) (sched := [polls]) rfl hc
    refine ⟨{ dropWrite t with readLog := log }, ?_, rfl⟩
    rw [hissue, run_wr_dropped rfl (by decide) (by decide)]
    exact hw
  · have hc : completeStep (accept (encode i) s) = .next t := by rw [completeStep_of_decode hd, h]
    have hidle : (writeReg offLen v t).status.busy = false := (completeStep_idle hc).1
    refine ⟨{ t with len := v, readLog := statusWord t.status :: t.readLog }, ?_, rfl⟩
    rw [hissue, run_wr_after_completion rfl hc (by decide) (by decide), run_wait_idle hidle]
    rfl

/-- Settles O4: the step is the engine's turn, and a busy engine's turn runs the command its pending word names. -/
theorem stepRunsThePendingCommand : Obligations.StepRunsThePendingCommand := by
  intro s i hb hd
  constructor
  · intro hi
    rw [step_nil hi, engineTurn_busy hb, completeStep_of_decode hd]
  · intro rest hi
    rw [step_cons hi, deliver, engineTurn_busy (by exact hb), completeStep_of_decode (by exact hd)]

end Sys2Proof.Machine
end

section
/-! PROOFS. The registers: their values after reset, the layout of `STATUS` and `CSUM`, and what register reads and writes
do while idle (10_state.md R26, R28, R37 to R43). -/

namespace Sys2Proof.Machine

/-- A buffer with no written byte: every byte is the free value of its offset (10_state.md R43). -/
theorem bufByte_of_buf_nil {s : State} (h : s.buf = []) (i : Nat) : bufByte s i = Config.unwrittenByte s.epoch i := by
  rw [bufByte, h, Memory.lookup]

/-- Settles O23: each register by its definition, each byte because the buffer lists nothing. -/
theorem resetValues : Obligations.ResetValues :=
  ⟨rfl, rfl, rfl, rfl, rfl, by decide, by decide, rfl, fun i => ⟨rfl, bufByte_of_buf_nil rfl i⟩⟩

/-- Settles O25: the register is a concatenation of its fields. -/
theorem statusRegisterLayout : Obligations.StatusRegisterLayout := by
  intro st
  simp only [statusWord, toNat_append_eq_add, BitVec.toNat_ofBool, BitVec.ofNat_eq_ofNat, BitVec.toNat_zero]
  omega

/-- Settles O26: the view is the concatenation of `B` and `A`. -/
theorem csumRegisterIsTheAccumulators : Obligations.CsumRegisterIsTheAccumulators :=
  fun s => toNat_append_eq_add s.b s.a

/-- Settles O27: an idle register read returns the map's value, offset by offset. -/
theorem registerReadsWhileIdle : Obligations.RegisterReadsWhileIdle := by
  intro s hb reads
  have read {off : Nat} {v : Word} (h4 : off % 4 = 0) (hlt : off < regSpan) (hv : regValue s off = v) :
      reads off v := perform_read_reg_of_value hb h4 hlt hv
  exact ⟨read rfl (by decide) rfl, read rfl (by decide) rfl, read rfl (by decide) rfl, read rfl (by decide) rfl,
    read rfl (by decide) rfl, read rfl (by decide) rfl, read rfl (by decide) rfl, read rfl (by decide) rfl,
    read rfl (by decide) rfl, fun off hlo hhi h4 => read h4 hhi (regValue_reserved s hlo)⟩

/-- Settles O28: an idle register write does what the map says, offset by offset. -/
theorem registerWritesWhileIdle : Obligations.RegisterWritesWhileIdle := by
  intro s v hb
  have write {off : Nat} {t : State} (h4 : off % 4 = 0) (hlt : off < regSpan) (hw : writeReg off v s = t) :
      hostAccess (.write .reg off 4 v) s = .next t := hw ▸ hostAccess_write_reg hb h4 hlt v
  exact ⟨write rfl (by decide) rfl, write rfl (by decide) rfl, write rfl (by decide) rfl, write rfl (by decide) rfl,
    write rfl (by decide) rfl, write rfl (by decide) rfl, write rfl (by decide) rfl, write rfl (by decide) rfl,
    fun off hlo hhi h4 => write h4 hhi (writeReg_reserved v s hlo)⟩

end Sys2Proof.Machine
end

section
/-! PROOFS. Which accesses of the host answer (20_memory.md R51, R52; 10_state.md R42), and what a pending command keeps
(R65, R72). -/

namespace Sys2Proof.Machine

/-! ### Answered and refused accesses -/

/-- A read answers a next state exactly when the port has no reason to refuse it. -/
theorem hostAccess_read_answers_iff {sp : Space} {off width : Nat} {s : State} :
    (∃ t, hostAccess (.read sp off width) s = .next t) ↔ accessRefusal sp off width = none := by
  cases h : accessRefusal sp off width <;> simp [hostAccess, perform, h]

/-- A write answers a next state exactly when the port has no reason to refuse it, busy or idle. -/
theorem hostAccess_write_answers_iff {sp : Space} {off width : Nat} {v : Word} {s : State} :
    (∃ t, hostAccess (.write sp off width v) s = .next t) ↔ accessRefusal sp off width = none := by
  cases h : accessRefusal sp off width <;> simp [hostAccess, perform, h]

/-- No access of the host ends in a fault. -/
theorem hostAccess_answers_or_refused (acc : Access) (s : State) :
    (∃ t, hostAccess acc s = .next t) ∨ ∃ r, hostAccess acc s = .refused r := by
  unfold hostAccess
  cases perform acc s with
  | next d => exact .inl ⟨d.2, rfl⟩
  | fault r => cases r
  | refused r => exact .inr ⟨r, rfl⟩

/-- Settles O32: an access answers exactly when `accessRefusal` names no reason, in each of the two spaces. -/
theorem refusedAccesses : Obligations.RefusedAccesses := by
  intro s off width v
  exact ⟨hostAccess_write_answers_iff.trans accessRefusal_reg_none,
    hostAccess_read_answers_iff.trans accessRefusal_reg_none,
    hostAccess_write_answers_iff.trans accessRefusal_buf_none_iff,
    hostAccess_read_answers_iff.trans accessRefusal_buf_none_iff,
    fun acc => hostAccess_answers_or_refused acc s⟩

/-! ### Accesses while a command is pending -/

/-- Settles O35: a read changes the log and the counter of free values alone, and a write is dropped. -/
theorem pendingCommandKeepsItsOperands : Obligations.PendingCommandKeepsItsOperands := by
  intro acc s t hb h
  rcases hostAccess_cases h with
    ⟨-, -, -, -, -, -, ht⟩ | ⟨sp, off, width, v, -, -, ⟨-, rfl⟩ | ⟨hidle, -⟩⟩
  · have hst : t.status = s.status := by rw [ht]
    rw [hst]
    exact ht
  · rfl
  · exact absurd (hb.symm.trans hidle) (by decide)

end Sys2Proof.Machine
end

section
/-! PROOFS. Reads and writes of the host while idle: a read repeated (20_memory.md R55, R66), a buffer byte written and
read back (R52, R56, R69), and what a wider buffer access would be (R52). -/

namespace Sys2Proof.Machine

/-! ### A read repeated -/

/-- A read while idle leaves the engine as it is (20_memory.md R66). -/
theorem readSpace_snd_idle {s : State} (hb : s.status.busy = false) (sp : Space) (off width : Nat) :
    (readSpace sp off width s).2 = s := by
  rcases readSpace_snd sp off width s with h | ⟨hbusy, -⟩
  · exact h
  · exact absurd (hb.symm.trans hbusy) (by decide)

/-- A read while idle returns the value and adds it to the log. -/
theorem perform_read_idle {s : State} (hb : s.status.busy = false) {sp : Space} {off width : Nat}
    (h : accessRefusal sp off width = none) :
    perform (.read sp off width) s = .next ((readSpace sp off width s).1,
      { s with readLog := (readSpace sp off width s).1 :: s.readLog }) := by
  simp [perform, h, readSpace_snd_idle hb]

/-- What a read returns does not depend on the log of the reads before it. -/
theorem readSpace_fst_readLog (sp : Space) (off width : Nat) (s : State) (log : List Word) :
    (readSpace sp off width { s with readLog := log }).1 = (readSpace sp off width s).1 := by
  cases sp with
  | reg => simp only [readSpace, readReg]; split <;> rfl
  | buf => simp only [readSpace, readBufWord]; split <;> rfl

/-- Settles O34: the first read adds its value to the log, of which the second read is independent. -/
theorem idleReadsAreIdempotent : Obligations.IdleReadsAreIdempotent := by
  intro s t sp off width v hb h
  have hr : accessRefusal sp off width = none :=
    hostAccess_read_answers_iff.1 ⟨t, hostAccess_eq_next.2 ⟨v, h⟩⟩
  rw [perform_read_idle hb hr] at h
  cases h
  refine ⟨rfl, ?_⟩
  rw [perform_read_idle (by exact hb) hr, readSpace_fst_readLog]

/-! ### A buffer byte written and read back -/

theorem hostAccess_write_byte {s : State} (hb : s.status.busy = false) {i : Nat} (hi : i < cfg.bufsz) (v : Byte) :
    hostAccess (.write .buf i 1 (v.setWidth 32)) s = .next (writeBuf s i [v]) :=
  hostAccess_eq_next.2 ⟨0, perform_write_byte hb hi v⟩

theorem bufByte_writeBuf_byte_same (s : State) (i : Nat) (v : Byte) : bufByte (writeBuf s i [v]) i = v :=
  bufByte_store_in (writeBuf_buf s i [v]) 0 Nat.one_pos

theorem bufByte_writeBuf_byte_other (s : State) {i j : Nat} (v : Byte) (h : j ≠ i) :
    bufByte (writeBuf s i [v]) j = bufByte s j :=
  bufByte_store_out (writeBuf_buf s i [v]) (writeBuf_epoch s i [v]) j (Nat.lt_or_gt_of_ne h)

/-- Settles O31: the write stores one byte, which a read of its offset returns and no other byte depends on. -/
theorem bufferWriteThenRead : Obligations.BufferWriteThenRead := by
  intro s i v hb hi
  refine ⟨writeBuf s i [v], hostAccess_write_byte hb hi v, rfl, ?_, fun j hj => bufByte_writeBuf_byte_other s v hj⟩
  rw [perform_read_byte (by exact hb) hi, bufByte_writeBuf_byte_same]

/-! ### A wide buffer access as its byte accesses -/

/-- A buffer read while idle is the little-endian word of the bytes it covers. -/
theorem readBufWord_idle {s : State} (hb : s.status.busy = false) (off width : Nat) :
    readBufWord off width s = (ofLE32 (bufBytes s off width), s) := by
  simp [readBufWord, hb]

/-- The word of two bytes, whose upper half is 0 (20_memory.md R52). -/
theorem ofLE32_pair (b0 b1 : Byte) : ofLE32 [b0, b1] = BitVec.ofNat 32 (b0.toNat + 2 ^ 8 * b1.toNat) := by
  simp [ofLE32]

theorem storeBytes_append (s t : List Byte) (m : Memory) (i : Nat) :
    Memory.storeBytes m i (s ++ t) = Memory.storeBytes (Memory.storeBytes m i s) (i + s.length) t := by
  induction s generalizing m i with
  | nil => rfl
  | cons v s ih =>
    rw [List.cons_append, Memory.storeBytes, Memory.storeBytes, ih, List.length_cons, Nat.add_right_comm, Nat.add_assoc]

theorem writeBuf_append (s : State) (i : Nat) (u v : List Byte) :
    writeBuf s i (u ++ v) = writeBuf (writeBuf s i u) (i + u.length) v := by
  simp only [writeBuf, storeBytes_append]

/-- Byte lane `j` of a word is the low lane of the word shifted right by `j` bytes. -/
theorem take_one_toLE32_ushiftRight (v : Word) {j : Nat} (h : j < 4) :
    (toLE32 (v >>> (8 * j))).take 1 = [(toLE32 v)[j]] := by
  have hlane : (toLE32 v)[j] = v.extractLsb' (8 * j) 8 := by
    interval_cases j <;> rfl
  rw [hlane]
  rfl

/-- A buffer write of one byte more is the narrower write and then the write of that byte. -/
theorem writeBufWord_succ (off : Nat) {width : Nat} (h : width < 4) (v : Word) (s : State) :
    writeBufWord off (width + 1) v s =
      writeBufWord (off + width) 1 (v >>> (8 * width)) (writeBufWord off width v s) := by
  have hlen : ((toLE32 v).take width).length = width := by
    rw [List.length_take, toLE32_length]; omega
  rw [writeBufWord, writeBufWord, writeBufWord, take_one_toLE32_ushiftRight v h, List.take_succ_eq_append_getElem h,
    writeBuf_append, hlen]

/-- A buffer write of up to four bytes is its byte writes at the rising offsets. -/
theorem writeBufWord_eq_foldl_bytes (off : Nat) {width : Nat} (h : width ≤ 4) (v : Word) (s : State) :
    writeBufWord off width v s =
      (List.range width).foldl (fun t j => writeBufWord (off + j) 1 (v >>> (8 * j)) t) s := by
  induction width with
  | zero => rfl
  | succ width ih =>
    rw [writeBufWord_succ off h, ih (Nat.le_of_succ_le h), List.range_succ, List.foldl_append]
    rfl

/-- Settles O33: a wide read is the little-endian word of its bytes, and a wide write is built up a byte at a time. -/
theorem wideBufferAccessIsItsByteAccesses : Obligations.WideBufferAccessIsItsByteAccesses := by
  intro s off v hb
  refine ⟨?_, ?_, fun width hw => writeBufWord_eq_foldl_bytes off ?_ v s⟩
  · rw [readBufWord_idle hb]
    exact congrArg (·, s) (ofLE32_pair (bufByte s off) (bufByte s (off + 1)))
  · rw [readBufWord_idle hb]
    rfl
  · rcases List.mem_pair.1 hw with rfl | rfl <;> decide

end Sys2Proof.Machine
end

section
/-! PROOFS. The decoder and the encoder invert each other, on command words and on byte sequences (30_encoding.md R75 to
R80). -/

namespace Sys2Proof

/-! ### Words -/

/-- The decoder in the fields of the word (R75 to R77): reserved bits clear, operation code assigned. -/
theorem decodeWord_eq_ok_iff_fields {w : Word} {i : Instr} :
    decodeWord w = .ok i ↔ (fieldsOf w).rsv = 0 ∧ instrOfOp (fieldsOf w).op = some i := by
  unfold decodeWord
  by_cases hr : (fieldsOf w).rsv = 0
  · rw [if_neg (not_not.2 hr)]
    cases instrOfOp (fieldsOf w).op <;> simp [hr]
  · rw [if_pos hr]
    exact ⟨nofun, fun ⟨hrsv, _⟩ => absurd hrsv hr⟩

/-- A word decodes to a command exactly when it is that command's word (R76, R77): its two fields are those the encoder
writes, and a word is determined by its fields. -/
theorem decodeWord_eq_ok_iff {w : Word} {i : Instr} : decodeWord w = .ok i ↔ w = encode i := by
  constructor
  · intro h
    obtain ⟨hrsv, hop⟩ := decodeWord_eq_ok_iff_fields.1 h
    have hf : fieldsOf w = encodeFields i := congrArg₂ CommandFields.mk (instrOfOp_eq_some.1 hop) hrsv
    rw [encode, ← hf, wordOf_fieldsOf]
  · rintro rfl
    exact Machine.decodeWord_encode i

/-- The six words and their commands, one row for each command (R76). -/
theorem mem_commandWords_iff (w : Word) (i : Instr) :
    (w, i) ∈ [((1 : Word), Instr.csinit), (2, .csupd), (3, .csum), (4, .enc), (5, .dec), (6, .keyclr)] ↔
      w = encode i := by
  have hrow : [((1 : Word), Instr.csinit), (2, .csupd), (3, .csum), (4, .enc), (5, .dec), (6, .keyclr)] =
      [Instr.csinit, .csupd, .csum, .enc, .dec, .keyclr].map fun j => (encode j, j) := by decide
  have hall : i ∈ [Instr.csinit, .csupd, .csum, .enc, .dec, .keyclr] := by cases i <;> decide
  rw [hrow, List.mem_map]
  constructor
  · rintro ⟨j, -, hj⟩
    obtain ⟨rfl, rfl⟩ := Prod.mk.inj hj
    rfl
  · rintro rfl
    exact ⟨i, hall, rfl⟩

/-- Settles O1: what decodes is the command's own word, and the six rows are the commands with their words. -/
theorem decoderAcceptsExactlyTheSixWords : Obligations.DecoderAcceptsExactlyTheSixWords :=
  fun w i => decodeWord_eq_ok_iff.trans (mem_commandWords_iff w i).symm

/-! ### Byte sequences -/

/-- The four bytes of a word decode as the word does (R80). -/
theorem decodeBytes_toLE32 (w : Word) : decodeBytes (Machine.toLE32 w) = decodeWord w :=
  congrArg decodeWord (Machine.ofLE32_toLE32 w)

/-- A sequence that decodes is the four bytes of a word that decodes: every other length is rejected (R80). -/
theorem eq_toLE32_of_decodeBytes {bs : List Byte} {i : Instr} (h : decodeBytes bs = .ok i) :
    ∃ w, bs = Machine.toLE32 w ∧ decodeWord w = .ok i := by
  unfold decodeBytes at h
  split at h
  · next b0 b1 b2 b3 => exact ⟨_, (Machine.toLE32_ofLE32 b0 b1 b2 b3).symm, h⟩
  · cases h

/-- Settles O2: both directions are those of words, carried over the rendering of a word as four bytes. -/
theorem decodeAndEncodeAgreeOnBytes : Obligations.DecodeAndEncodeAgreeOnBytes := by
  constructor
  · intro i _
    rw [encodeBytes, decodeBytes_toLE32, Machine.decodeWord_encode]
  · intro bs i h
    obtain ⟨w, rfl, hw⟩ := eq_toLE32_of_decodeBytes h
    rw [decodeWord_eq_ok_iff.1 hw, encodeBytes]

/-! ### Words written as numbers -/

theorem tableWord_32 (w : Nat) : tableWord 32 w = BitVec.ofNat 32 w := by
  apply BitVec.eq_of_toNat_eq
  simp [tableWord]

theorem decodeTableWord_32_eq_some {w : Nat} {i : Instr} :
    decodeTableWord 32 w = some i ↔ decodeWord (BitVec.ofNat 32 w) = .ok i := by
  rw [decodeTableWord, if_pos (by decide), decodeBytes_toLE32, tableWord_32]
  cases decodeWord (BitVec.ofNat 32 w) <;> simp [Except.toOption]

end Sys2Proof
end

section
/-! PROOFS. A command from the write that issues it to its completion (30_encoding.md R78, R85, R86). -/

namespace Sys2Proof.Machine

/-- Settles O6: an idle write of `CMD` is `accept`, and a busy one is dropped like every write. -/
theorem commandWriteIsAcceptedWhileIdle : Obligations.CommandWriteIsAcceptedWhileIdle := by
  intro s w
  constructor
  · intro hb
    exact hostAccess_write_reg hb (off := offCmd) (by decide) (by decide) w
  · intro hb
    exact hostAccess_eq_next.2 ⟨0, perform_write_busy hb (accessRefusal_reg_none.2 (by decide)) w⟩

/-- A command placed as the next thing to happen completes in the very next step (R85, R86). -/
theorem step_withCommand (w : Word) (s : State) : step (withCommand w s) = completeStep (accept w s) := by
  rw [step_cons (withCommand_inputs w s), deliver]
  exact engineTurn_busy (s := accept w s) rfl

/-- Settles O5: the step completes the placed word, and the word decodes to the command. -/
theorem placedCommandRunsNext : Obligations.PlacedCommandRunsNext := by
  intro s w i h
  have hd : decodeWord (accept (BitVec.ofNat 32 w) s).pend = .ok i := decodeTableWord_32_eq_some.1 h
  rw [State.withFetchWord, tableWord_32, step_withCommand, completeStep_of_decode hd]
  rfl

/-- Settles O8: a command raises an error, which clears `BUSY` and sets `DONE` and `ERR`, or performs its effect, which
does not touch `STATUS`, and finishes. -/
theorem everyCommandCompletes : Obligations.EveryCommandCompletes := by
  intro i s
  cases hc : commandCheck i s with
  | some e => exact ⟨_, exec_of_check_some hc, rfl, rfl, rfl, nofun⟩
  | none =>
    refine ⟨_, exec_of_check_none hc, rfl, rfl, ?_, fun _ => rfl⟩
    obtain ⟨hst, -⟩ := commandEffect_frame i s
    rw [finish_status, statusCompleted_haz, hst]

/-! ### Illegal words -/

/-- A word that is none of the six decodes to no command (R77). -/
theorem decodeWord_ne_ok_of_illegal {w : Word} (h : w ∉ [(1 : Word), 2, 3, 4, 5, 6]) (i : Instr) :
    decodeWord w ≠ .ok i := by
  intro hd
  have hmem : encode i ∈ [(1 : Word), 2, 3, 4, 5, 6] := by cases i <;> decide
  exact h (decodeWord_eq_ok_iff.1 hd ▸ hmem)

/-- The *complete* step of a word that is no command (R78). -/
theorem completeStep_of_illegal {s : State} (h : ∀ i, decodeWord s.pend ≠ .ok i) :
    completeStep s = .next (raise .illegalCommand s) := by
  rcases completeStep_cases s with ⟨i, hd, -⟩ | ⟨-, -, hc⟩
  · exact absurd hd (h i)
  · exact hc

/-- Settles O7: the first step accepts the write; the second is the engine's turn, which finds no command in `PEND` and
raises the error. -/
theorem illegalWordCompletesWithIllegalCommand : Obligations.IllegalWordCompletesWithIllegalCommand := by
  intro s w rest hw hb hi
  have hissue : step s = .next (withCommand w { s with inputs := rest }) := by
    rw [step_cons hi]
    exact (commandWriteIsAcceptedWhileIdle _ w).1 hb
  have hcomplete : step (withCommand w { s with inputs := rest }) =
      .next (raise .illegalCommand (accept w { s with inputs := rest })) := by
    rw [step_withCommand]
    exact completeStep_of_illegal (decodeWord_ne_ok_of_illegal hw)
  rw [steps_succ_of_next hissue, steps_succ_of_next hcomplete, steps_zero]
  rfl

end Sys2Proof.Machine
end

section
/-! PROOFS. The arithmetic of the checksum: the closed form of a run, and what one byte does to it (40_checksum.md R96,
R106). -/

namespace Sys2Proof.Machine

/-! ### The closed form of a run -/

/-- The sum in the second accumulator's closed form (40_checksum.md R96): each byte counted once for itself and once for
every byte after it. -/
def weightedSum (s : List Byte) : Nat :=
  ((List.range s.length).map fun i => (s.length - i) * (s.getD i 0).toNat).sum

@[simp] theorem weightedSum_nil : weightedSum [] = 0 := rfl

/-- The weights count from the end, so a byte put in front leaves those of the others. -/
@[simp] theorem weightedSum_cons (x : Byte) (s : List Byte) :
    weightedSum (x :: s) = (s.length + 1) * x.toNat + weightedSum s := by
  simp [weightedSum, List.range_succ_eq_map, Function.comp_def]

/-- The first accumulator is what it was plus the byte, as residues (40_checksum.md R95). -/
theorem adlerStep_fst_modEq (p : Nat × Nat) (x : Byte) : (adlerStep p x).1 ≡ p.1 + x.toNat [MOD cfg.adlerMod] :=
  Nat.mod_modEq _ _

/-- The second accumulator takes up the new first one (40_checksum.md R95). -/
theorem adlerStep_snd_modEq (p : Nat × Nat) (x : Byte) :
    (adlerStep p x).2 ≡ p.2 + (p.1 + x.toNat) [MOD cfg.adlerMod] :=
  (Nat.mod_modEq _ _).trans ((adlerStep_fst_modEq p x).add_left p.2)

/-- The second accumulator of a run is a weighted sum (40_checksum.md R96): every step takes up the first accumulator,
which holds its start and the bytes so far. -/
theorem adlerRun_snd_modEq (s : List Byte) (p : Nat × Nat) :
    (adlerRun p s).2 ≡ p.2 + s.length * p.1 + weightedSum s [MOD cfg.adlerMod] := by
  induction s generalizing p with
  | nil => simpa using Nat.ModEq.refl p.2
  | cons x s ih =>
    calc (adlerRun p (x :: s)).2
        ≡ (adlerStep p x).2 + s.length * (adlerStep p x).1 + weightedSum s [MOD cfg.adlerMod] := ih _
      _ ≡ p.2 + (p.1 + x.toNat) + s.length * (p.1 + x.toNat) + weightedSum s [MOD cfg.adlerMod] :=
          ((adlerStep_snd_modEq p x).add ((adlerStep_fst_modEq p x).mul_left _)).add_right _
      _ = p.2 + (x :: s).length * p.1 + weightedSum (x :: s) := by
          rw [weightedSum_cons, List.length_cons]
          ring

/-- Settles O41: each accumulator is below the modulus and congruent to its sum. -/
theorem adlerClosedForm : Obligations.AdlerClosedForm := by
  intro s
  refine Prod.ext (adlerRun_fst s (1, 0) adlerInit_lt.1) ?_
  have hsnd : (adlerRun (1, 0) s).2 ≡ s.length + weightedSum s [MOD cfg.adlerMod] := by
    simpa using adlerRun_snd_modEq s (1, 0)
  exact (Nat.mod_eq_of_modEq hsnd.symm (adlerRun_lt s (1, 0) adlerInit_lt).2).symm

/-! ### One byte of a run -/

/-- One byte's share of the first accumulator, apart from the others' (40_checksum.md R96). -/
theorem adlerRun_append_cons_fst (r : Nat × Nat) (p q : List Byte) (x : Byte) :
    (adlerRun r (p ++ x :: q)).1 =
      ((adlerRun r p).1 + (q.map BitVec.toNat).sum + x.toNat) % cfg.adlerMod := by
  rw [adlerRun_append, adlerRun_cons, adlerRun_fst _ _ (adlerStep_lt _ x).1, Nat.add_right_comm]
  exact (adlerStep_fst_modEq _ x).add_right _

/-- Settles O43: the two runs share all but the byte's own term, and two different bytes differ by less than the
modulus. -/
theorem oneByteChangeChangesTheChecksum : Obligations.OneByteChangeChangesTheChecksum := by
  intro a b p q x y hxy
  have hmod : cfg.adlerMod = 65521 := rfl
  have hne : x.toNat ≠ y.toNat := fun h => hxy (BitVec.eq_of_toNat_eq h)
  rw [adlerRun_append_cons_fst, adlerRun_append_cons_fst, hmod]
  constructor <;> omega

end Sys2Proof.Machine
end

section
/-! PROOFS. The three commands of the checksum unit (40_checksum.md R97 to R99), and how `CSUM` is made of `CSINIT` and
`CSUPD` (R102). -/

namespace Sys2Proof.Machine

/-! ### The accumulators and the operand -/

/-- Residues fit the 16-bit registers (40_checksum.md R105). -/
theorem accumulators_setAccumulators {r : Nat × Nat} (hr : r.1 < cfg.adlerMod ∧ r.2 < cfg.adlerMod) (s : State) :
    accumulators (setAccumulators r s) = r := by
  rw [accumulators, setAccumulators_a, setAccumulators_b, toNat_ofNat_adler hr.1, toNat_ofNat_adler hr.2]

@[simp] theorem setAccumulators_operand (r : Nat × Nat) (s : State) :
    operandBytes (setAccumulators r s) = operandBytes s :=
  operandBytes_congr (setAccumulators_buf r s) (setAccumulators_epoch r s) (setAccumulators_len r s)

/-- A run over the operand takes `BUF[0]`, `BUF[1]`, ... in order (40_checksum.md R98). -/
theorem adlerRun_operand (p : Nat × Nat) (s : State) :
    adlerRun p (operandBytes s) = (List.range s.len.toNat).foldl (fun r i => adlerStep r (bufByte s i)) p := by
  rw [adlerRun, operandBytes, bufBytes, List.foldl_map, ← List.range_eq_range', lenNat]

/-! ### The three commands -/

theorem exec_csinit (s : State) : exec .csinit s = .next (finish (setAccumulators adlerInit s)) :=
  exec_of_check_none (i := .csinit) rfl

theorem exec_csupd {s : State} (h : s.len.toNat ≤ cfg.bufsz) :
    exec .csupd s = .next (finish (setAccumulators (adlerRun (accumulators s) (operandBytes s)) s)) :=
  exec_of_check_none (i := .csupd) (rangeCheck_none.2 h)

theorem exec_csum {s : State} (h : s.len.toNat ≤ cfg.bufsz) :
    exec .csum s = .next (finish (setAccumulators (adlerRun adlerInit (operandBytes s)) s)) :=
  exec_of_check_none (i := .csum) (rangeCheck_none.2 h)

/-- Settles O10: `CSINIT` has no check, and writes the same fields each time. -/
theorem csinitStartsAChecksum : Obligations.CsinitStartsAChecksum :=
  fun s => ⟨_, exec_csinit s, rfl, exec_csinit _⟩

/-- Settles O11: the run over the operand is the fold over `BUF[0:LEN)`; past the buffer the range check raises. -/
theorem csupdContinuesTheChecksum : Obligations.CsupdContinuesTheChecksum := by
  intro s
  constructor
  · intro h
    rw [exec_csupd h, adlerRun_operand]
    rfl
  · intro h
    exact exec_of_check_some (i := .csupd) (rangeCheck_of_lt h)

/-- `CSUPD` on residues continues their run over the operand (40_checksum.md R98, R102). -/
theorem exec_csupd_setAccumulators {s : State} {r : Nat × Nat} (h : s.len.toNat ≤ cfg.bufsz)
    (hr : r.1 < cfg.adlerMod ∧ r.2 < cfg.adlerMod) :
    exec .csupd (setAccumulators r s) = .next (finish (setAccumulators (adlerRun r (operandBytes s)) s)) := by
  rw [exec_csupd (s := setAccumulators r s) h, accumulators_setAccumulators hr, setAccumulators_operand]
  rfl

/-- `CSUPD` after `CSINIT` runs from the initial accumulators over the same operand (40_checksum.md R99). -/
theorem exec_csupd_after_csinit {s : State} (h : s.len.toNat ≤ cfg.bufsz) :
    exec .csupd (finish (setAccumulators adlerInit s)) = exec .csum s := by
  have hcsupd := exec_csupd_setAccumulators (s := finish s) h adlerInit_lt
  rw [finish_operand] at hcsupd
  exact hcsupd.trans (exec_csum h).symm

/-- Settles O12: as for `CSUPD`, from the initial accumulators, which are those `CSINIT` leaves. -/
theorem csumIsTheOneShotChecksum : Obligations.CsumIsTheOneShotChecksum := by
  intro s
  constructor
  · intro h
    refine ⟨?_, _, _, exec_csinit s, (exec_csupd_after_csinit h).trans (exec_csum h), exec_csum h⟩
    rw [exec_csum h, adlerRun_operand]
    rfl
  · intro h
    exact exec_of_check_some (i := .csum) (rangeCheck_of_lt h)

/-! ### The incremental law -/

/-- Settles O42: a run splits where its bytes do; each `CSUPD` takes over the residues the command before it left. -/
theorem checksumIsIncremental : Obligations.ChecksumIsIncremental := by
  refine ⟨fun a b p q => adlerRun_append (a, b) p q, ?_⟩
  rintro s0 s1 s2 u p q h1 h2 hu rfl rfl hpq
  have hsplit : adlerRun (adlerRun adlerInit (operandBytes s1)) (operandBytes s2) =
      adlerRun adlerInit (operandBytes u) := by rw [hpq, adlerRun_append]
  refine ⟨_, _, _, _, exec_csinit s0, exec_csupd_setAccumulators h1 adlerInit_lt,
    exec_csupd_setAccumulators h2 (adlerRun_lt _ _ adlerInit_lt), exec_csum hu, ?_, ?_⟩
  · rw [hsplit]; rfl
  · rw [hsplit]; rfl

end Sys2Proof.Machine
end

section
/-! PROOFS. The inverse of the default cipher (41_cipher.md R113 to R117) and of the mode over any cipher that has one
(R120, R123). -/

namespace Sys2Proof.Machine

theorem decCycles_encCycles (K : Key) (n : Nat) (v : Word × Word) : decCycles K n (encCycles K n v) = v := by
  induction n with
  | zero => rfl
  | succ n ih => rw [encCycles, decCycles, decCycle_encCycle, ih]

theorem encCycles_decCycles (K : Key) (n : Nat) (v : Word × Word) : encCycles K n (decCycles K n v) = v := by
  induction n generalizing v with
  | zero => rfl
  | succ n ih => rw [decCycles, encCycles, ih, encCycle_decCycle]

/-- Settles O45: the cycles of R117 undo those of R116 one by one, the last first. -/
theorem defaultCipherIsInvertible : Obligations.DefaultCipherIsInvertible :=
  fun n => ⟨fun K => decCycles_encCycles K n, fun K => encCycles_decCycles K n⟩

/-- The configured cipher is the default one (00_scope.md R13). -/
theorem cfg_blockCipher_inverse : cfg.blockCipher.Inverse := defaultCipherIsInvertible ncycles

theorem ecbDec_ecbEnc {C : BlockCipher} (hC : C.Inverse) (K : Key) {p : List Byte} (h : p.length % 8 = 0) :
    ecbDec C K (ecbEnc C K p) = p :=
  ecbMap_inverse (hC.dec_enc K) h

theorem ecbEnc_ecbDec {C : BlockCipher} (hC : C.Inverse) (K : Key) {c : List Byte} (h : c.length % 8 = 0) :
    ecbEnc C K (ecbDec C K c) = c :=
  ecbMap_inverse (hC.enc_dec K) h

theorem padded_length_mod (p : List Byte) : (padded p).length % 8 = 0 := by
  rw [padded_length]
  exact pad8_mod _

/-- Settles O46: block by block the cipher undoes itself, and padding always gives whole blocks. -/
theorem ecbRoundTripRestoresThePaddedInput : Obligations.EcbRoundTripRestoresThePaddedInput :=
  fun _ K hC => ⟨fun p => ecbDec_ecbEnc hC K (padded_length_mod p), fun _ hc => ecbEnc_ecbDec hC K hc⟩

end Sys2Proof.Machine
end

section
/-! PROOFS. The three commands of the cipher unit (41_cipher.md R121, R122, R124) and the laws between `ENC` and `DEC`
(R128). -/

namespace Sys2Proof.Machine

/-! ### The errors of `ENC` and `DEC`, in the order of 60_exceptions.md R170 -/

theorem exec_enc_range {s : State} (h : cfg.bufsz < s.len.toNat) : exec .enc s = .next (raise .lengthOutOfRange s) :=
  exec_of_check_some (i := .enc) (by rw [commandCheck, encCheck, rangeCheck_of_lt h, Option.some_or])

theorem exec_dec_range {s : State} (h : cfg.bufsz < s.len.toNat) : exec .dec s = .next (raise .lengthOutOfRange s) :=
  exec_of_check_some (i := .dec)
    (by rw [commandCheck, decCheck, rangeCheck_of_lt h, Option.some_or, Option.some_or])

theorem keyCheck_of_klen_ne {s : State} (hk : s.klen ≠ 16) : keyCheck s = some .invalidKeySize :=
  keyCheck_of_ne (mt klen_toNat_iff.1 hk)

theorem exec_enc_key {s : State} (h : s.len.toNat ≤ cfg.bufsz) (hk : s.klen ≠ 16) :
    exec .enc s = .next (raise .invalidKeySize s) :=
  exec_of_check_some (i := .enc)
    (by rw [commandCheck, encCheck, rangeCheck_none.2 h, keyCheck_of_klen_ne hk, Option.none_or])

theorem exec_dec_key {s : State} (h : s.len.toNat ≤ cfg.bufsz) (hk : s.klen ≠ 16) :
    exec .dec s = .next (raise .invalidKeySize s) :=
  exec_of_check_some (i := .dec)
    (by rw [commandCheck, decCheck, rangeCheck_none.2 h, keyCheck_of_klen_ne hk, Option.none_or, Option.some_or])

theorem exec_dec_align {s : State} (h : s.len.toNat ≤ cfg.bufsz) (hk : s.klen = 16) (hm : s.len.toNat % 8 ≠ 0) :
    exec .dec s = .next (raise .invalidBlockAlignment s) :=
  exec_of_check_some (i := .dec)
    (by rw [commandCheck, decCheck, rangeCheck_none.2 h, keyCheck_none.2 (klen_toNat_iff.2 hk), alignCheck_of_ne hm,
      Option.none_or, Option.none_or])

/-! ### Where the commands execute -/

theorem exec_enc {s : State} (h : s.len.toNat ≤ cfg.bufsz) (hk : s.klen = 16) :
    exec .enc s = .next (finish (encEffect s)) :=
  exec_of_check_none (i := .enc) (encCheck_none.2 ⟨h, klen_toNat_iff.2 hk⟩)

theorem exec_dec {s : State} (h : s.len.toNat ≤ cfg.bufsz) (hk : s.klen = 16) (hm : s.len.toNat % 8 = 0) :
    exec .dec s = .next (finish (decEffect s)) :=
  exec_of_check_none (i := .dec) (decCheck_none.2 ⟨⟨h, klen_toNat_iff.2 hk⟩, hm⟩)

theorem exec_keyclr (s : State) : exec .keyclr s = .next (finish (clearKey s)) :=
  exec_of_check_none (i := .keyclr) rfl

/-- Settles O15: `KEYCLR` has no check and writes constants; the key check follows the range check alone. -/
theorem keyclrErasesTheKey : Obligations.KeyclrErasesTheKey :=
  ⟨fun s => ⟨_, exec_keyclr s, rfl, exec_keyclr _⟩, fun _ hk h => ⟨exec_enc_key h hk, exec_dec_key h hk⟩⟩

/-! ### One block of the buffer -/

/-- A slice of a sequence whose bytes are known one by one. -/
theorem slice_eq_map {p : List Byte} {g : Nat → Byte} (hg : ∀ i (h : i < p.length), p[i] = g i) {a n : Nat}
    (h : a + n ≤ p.length) : slice p a (a + n) = (List.range' a n).map g := by
  apply List.ext_getElem
  · simp
    omega
  · intro i h1 h2
    simp [slice, hg]

/-- Bytes of the buffer below `LEN` are a slice of the operand. -/
theorem slice_operand {s : State} {a n : Nat} (h : a + n ≤ s.len.toNat) :
    slice (operandBytes s) a (a + n) = bufBytes s a n :=
  slice_eq_map (operandBytes_getElem s) (by simpa using h)

/-- Block `j` of an operand that the mode produced, from the eight bytes of block `j` of its input (R112, R120). -/
theorem bufBytes_block {t : State} {f : Word × Word → Word × Word} {p : List Byte} {g : Nat → Byte}
    (ht : operandBytes t = ecbMap f p) (hp : p.length % 8 = 0) (hg : ∀ i (h : i < p.length), p[i] = g i) {j : Nat}
    (hj : 8 * j < p.length) :
    let v := f (ofLE32 [g (8 * j), g (8 * j + 1), g (8 * j + 2), g (8 * j + 3)],
      ofLE32 [g (8 * j + 4), g (8 * j + 5), g (8 * j + 6), g (8 * j + 7)])
    bufBytes t (8 * j) 8 = toLE32 v.1 ++ toLE32 v.2 := by
  have hlen : t.len.toNat = p.length := by rw [← operandBytes_length, ht, ecbMap_length f hp]
  have hin : 8 * j + 8 ≤ p.length := by omega
  rw [← slice_operand (by rw [hlen]; exact hin), ht, ecbMap_slice f hp hj, slice_eq_map hg hin]
  simp [List.range', ecbMap]

/-- Byte `i` of the padded operand. -/
theorem padded_operand_getElem (s : State) (i : Nat) (h : i < (padded (operandBytes s)).length) :
    (padded (operandBytes s))[i] = if i < s.len.toNat then bufByte s i else 0 := by
  simp [padded_getElem, operandBytes_getElem]

/-- Settles O13: the operand after `ENC` is the mode over the padded operand, whose bytes are known one by one. -/
theorem encEnciphersThePaddedOperand : Obligations.EncEnciphersThePaddedOperand := by
  intro s
  refine ⟨fun h hk => ⟨_, exec_enc h hk, rfl, encEffect_len_toNat h, fun i hi => ?_, fun j hj => ?_⟩,
    exec_enc_range, exec_enc_key⟩
  · rw [finish_bufByte, encEffect_above s hi]
  · exact bufBytes_block ((finish_operand _).trans (encEffect_operand h)) (padded_length_mod _)
      (padded_operand_getElem s) (by rwa [padded_operand_length])

/-- Settles O14: the operand after `DEC` is the mode over the operand. -/
theorem decDeciphersTheOperand : Obligations.DecDeciphersTheOperand := by
  intro s
  refine ⟨fun h hk hm => ⟨_, exec_dec h hk hm, rfl, fun i hi => ?_, fun j hj => ?_⟩,
    exec_dec_range, exec_dec_key, exec_dec_align⟩
  · rw [finish_bufByte, decEffect_above hm hi]
  · have hlen := operandBytes_length s
    exact bufBytes_block ((finish_operand _).trans (decEffect_operand hm)) (by rwa [hlen])
      (operandBytes_getElem s) (by rwa [hlen])

/-! ### `ENC` and `DEC` after one another -/

/-- States with equal operands have equal bytes below `LEN`. -/
theorem bufByte_eq_of_operand {s t : State} (h : operandBytes t = operandBytes s) {i : Nat} (hi : i < s.len.toNat) :
    bufByte t i = bufByte s i := by
  rw [← operandBytes_length] at hi
  rw [← operandBytes_getElem s i hi, ← operandBytes_getElem t i (h ▸ hi)]
  simp only [h]

/-- `DEC` after `ENC` executes, because a padded operand still fits the buffer and is whole blocks (R121). -/
theorem exec_dec_after_enc {s : State} (h : s.len.toNat ≤ cfg.bufsz) (hk : s.klen = 16) :
    exec .dec (finish (encEffect s)) = .next (finish (decEffect (finish (encEffect s)))) := by
  have hlen : (finish (encEffect s)).len.toNat = pad8 s.len.toNat := encEffect_len_toNat h
  exact exec_dec (by rw [hlen]; exact pad8_le_bufsz h) hk (by rw [hlen]; exact pad8_mod _)

theorem decEffect_after_enc_operand {s : State} (h : s.len.toNat ≤ cfg.bufsz) :
    operandBytes (decEffect (finish (encEffect s))) = padded (operandBytes s) := by
  have hm : (finish (encEffect s)).len.toNat % 8 = 0 := by
    rw [finish_len, encEffect_len_toNat h]
    exact pad8_mod _
  rw [decEffect_operand hm, finish_operand, encEffect_operand h, finish_key, encEffect_key]
  exact ecbDec_ecbEnc cfg_blockCipher_inverse _ (padded_length_mod _)

theorem decEffect_after_enc_bufByte {s : State} (h : s.len.toNat ≤ cfg.bufsz) {i : Nat}
    (hi : i < pad8 s.len.toNat) :
    bufByte (decEffect (finish (encEffect s))) i = if i < s.len.toNat then bufByte s i else 0 := by
  have hlen : (decEffect (finish (encEffect s))).len.toNat = pad8 s.len.toNat := encEffect_len_toNat h
  obtain ⟨_, hbyte⟩ := bufByte_of_operand (decEffect_after_enc_operand h) (hlen.symm ▸ hi)
  rw [hbyte, padded_operand_getElem]

/-- Settles O47: after both commands the operand is the padded operand, and neither writes past `pad8(LEN)`. -/
theorem encThenDecRestoresThePaddedOperand : Obligations.EncThenDecRestoresThePaddedOperand := by
  intro s h hk
  have hlen : (finish (encEffect s)).len.toNat = pad8 s.len.toNat := encEffect_len_toNat h
  have hle := le_pad8 s.len.toNat
  refine ⟨_, _, exec_enc h hk, exec_dec_after_enc h hk, hlen, hlen.symm ▸ hle, hlen.symm ▸ pad8_sub_le _, rfl,
    fun i hi => ?_, fun i hi hi' => ?_, fun i hi => ?_⟩
  · rw [finish_bufByte, decEffect_after_enc_bufByte h (by omega), if_pos hi]
  · rw [finish_bufByte, decEffect_after_enc_bufByte h hi', if_neg (by omega)]
  · have hm : (finish (encEffect s)).len.toNat % 8 = 0 := by rw [hlen]; exact pad8_mod _
    rw [finish_bufByte, decEffect_above hm (hlen.symm ▸ hi), finish_bufByte, encEffect_above s hi]

/-- On whole blocks `ENC` adds no padding, and undoes `DEC`. -/
theorem encEffect_after_dec_operand {s : State} (h : s.len.toNat ≤ cfg.bufsz) (hm : s.len.toNat % 8 = 0) :
    operandBytes (encEffect (finish (decEffect s))) = operandBytes s := by
  have hop : (operandBytes s).length % 8 = 0 := by rwa [operandBytes_length]
  have hdec : operandBytes (finish (decEffect s)) = ecbDec cfg.blockCipher s.key (operandBytes s) :=
    (finish_operand _).trans (decEffect_operand hm)
  have hpad : padded (operandBytes (finish (decEffect s))) = operandBytes (finish (decEffect s)) :=
    padded_of_mod (by rw [operandBytes_length]; exact hm)
  rw [encEffect_operand (s := finish (decEffect s)) h, hpad, hdec, finish_key, decEffect_key]
  exact ecbEnc_ecbDec cfg_blockCipher_inverse _ hop

/-- Settles O48: below `LEN` the two commands cancel, and past it neither writes. -/
theorem decThenEncRestoresTheOperand : Obligations.DecThenEncRestoresTheOperand := by
  intro s h hk hm
  have hpad := pad8_of_mod hm
  refine ⟨_, _, exec_dec h hk hm, exec_enc (s := finish (decEffect s)) h hk, ?_, rfl, fun i => ?_⟩
  · have hlen := encEffect_len_toNat (s := finish (decEffect s)) h
    exact BitVec.eq_of_toNat_eq (hlen.trans hpad)
  · rw [finish_bufByte]
    by_cases hi : i < s.len.toNat
    · exact bufByte_eq_of_operand (encEffect_after_dec_operand h hm) hi
    · have hi' : s.len.toNat ≤ i := Nat.le_of_not_lt hi
      rw [encEffect_above (finish (decEffect s)) (hpad.le.trans hi'), finish_bufByte, decEffect_above hm hi']

/-- An operand that holds another one padded is that padding, and padding it adds nothing. -/
theorem padded_operand_eq {s s' : State} (hlen : s'.len.toNat = pad8 s.len.toNat)
    (hlow : ∀ i, i < s.len.toNat → bufByte s' i = bufByte s i)
    (hpad : ∀ i, s.len.toNat ≤ i → i < pad8 s.len.toNat → bufByte s' i = 0) :
    padded (operandBytes s') = padded (operandBytes s) := by
  rw [padded_of_mod (p := operandBytes s') (by rw [operandBytes_length, hlen]; exact pad8_mod _)]
  apply List.ext_getElem
  · rw [operandBytes_length, padded_operand_length, hlen]
  · intro i h1 h2
    rw [operandBytes_getElem, padded_operand_getElem]
    rw [padded_operand_length] at h2
    split
    next hi => exact hlow i hi
    next hi => exact hpad i (Nat.le_of_not_lt hi) h2

/-- Settles O49: `ENC` reads the padded operand and the key alone, and both are the same in the two states. -/
theorem encOfPaddedEqualsEncOfPlain : Obligations.EncOfPaddedEqualsEncOfPlain := by
  intro s s' h hk hk' hkey hlen hlow hpad
  have h' : s'.len.toNat ≤ cfg.bufsz := hlen.trans_le (pad8_le_bufsz h)
  have hop : operandBytes (finish (encEffect s')) = operandBytes (finish (encEffect s)) := by
    rw [finish_operand, finish_operand, encEffect_operand h', encEffect_operand h, hkey,
      padded_operand_eq hlen hlow hpad]
  refine ⟨_, _, exec_enc h hk, exec_enc h' hk', ?_, fun i hi => bufByte_eq_of_operand hop hi⟩
  apply BitVec.eq_of_toNat_eq
  rw [← operandBytes_length, hop, operandBytes_length]

end Sys2Proof.Machine
end

section
/-! PROOFS. `encode` and `decode` as functions of bytes (42_codec_sequences.md R147 to R149, R152): what each returns, and
that one undoes the other (R159). -/

namespace Sys2Proof.Machine

/-! ### `encode` -/

/-- `encode` without a cipher (R148, R149): the bound on `outer_length` is the tighter one. -/
theorem encodeFrame_of_no_cipher {payload : List Byte} {key : Option (List Byte)} {flags : PacketFlags}
    (hc : cipherKey flags key = none) :
    encodeFrame payload key flags =
      if maxOuter < checksumSize flags + payload.length then .error .payloadTooLarge
      else .ok (outerFrame flags payload) := by
  have hmax : cfg.maxPayload = maxOuter := rfl
  unfold encodeFrame
  rw [hc]
  split
  next h => rw [if_pos (by omega)]
  next h => rfl

/-- `encode` with a 16-byte key (R148, R149): the bound on `outer_length` is the tighter one. -/
theorem encodeFrame_of_cipher {payload k : List Byte} {key : Option (List Byte)} {flags : PacketFlags}
    (hc : cipherKey flags key = some k) (hk : k.length = 16) :
    encodeFrame payload key flags =
      if maxOuter < checksumSize flags + pad8 (2 + payload.length) then .error .payloadTooLarge
      else .ok (outerFrame flags (ecbEnc cfg.blockCipher (keyOfBytes k) (padded (innerFrame payload)))) := by
  have hmax : cfg.maxPayload = maxOuter := rfl
  have hle := le_pad8 (2 + payload.length)
  have henc : encryptBytes k (innerFrame payload) = .ok _ := if_pos hk
  unfold encodeFrame
  rw [hc]
  split
  next h => rw [if_pos (by omega)]
  next h => simp only [henc]

theorem cipherKey_enabled {flags : PacketFlags} (h : flags.cipherEnabled = true) (key : Option (List Byte)) :
    cipherKey flags key = key := if_pos h

theorem cipherKey_disabled {flags : PacketFlags} (h : flags.cipherEnabled = false) (key : Option (List Byte)) :
    cipherKey flags key = none := if_neg (by simp [h])

theorem checksumSize_le (flags : PacketFlags) : checksumSize flags ≤ 4 := by
  unfold checksumSize
  split <;> omega

/-- A padded inner frame fits its bound exactly for a payload of at most 65526 bytes, with or without the checksum. -/
theorem cipher_fits_iff (flags : PacketFlags) (n : Nat) :
    ¬ maxOuter < checksumSize flags + pad8 (2 + n) ↔ n ≤ 65526 := by
  have hcs := checksumSize_le flags
  have hmax : maxOuter = 65535 := rfl
  unfold pad8
  omega

/-- Without a cipher the checksum's four bytes are all the bound leaves out. -/
theorem plain_fits_iff (flags : PacketFlags) (n : Nat) :
    ¬ maxOuter < checksumSize flags + n ↔ n ≤ if flags.checksumEnabled then 65531 else 65535 := by
  have hmax : maxOuter = 65535 := rfl
  unfold checksumSize
  split <;> omega

/-- What one comparison in front of a result says of it. -/
theorem ok_or_tooLarge {β : Type} {P : Prop} [Decidable P] {x : Except ErrorKind β} {b : β}
    (h : x = if P then .error .payloadTooLarge else .ok b) :
    ((∃ f, x = .ok f) ↔ ¬ P) ∧ ((∃ f, x = .ok f) ∨ x = .error .payloadTooLarge) := by
  subst h
  split
  next hP => simp [hP]
  next hP => simp [hP]

/-- Settles O50: with and without the cipher, `encode` is one comparison of the `outer_length` with its maximum. -/
theorem largestPayloadsThatEncode : Obligations.LargestPayloadsThatEncode := by
  intro payload k flags hk
  cases hc : flags.cipherEnabled with
  | true =>
    obtain ⟨hok, hor⟩ := ok_or_tooLarge
      (encodeFrame_of_cipher (payload := payload) (cipherKey_enabled hc (some k)) hk)
    exact ⟨hok.trans (cipher_fits_iff flags payload.length), hor⟩
  | false =>
    obtain ⟨hok, hor⟩ := ok_or_tooLarge
      (encodeFrame_of_no_cipher (payload := payload) (cipherKey_disabled hc (some k)))
    exact ⟨hok.trans (plain_fits_iff flags payload.length), hor⟩

/-! ### `finalize` -/

/-- The key reaches `ENCODE` through `use_cipher` alone (R147). -/
theorem encodeProgram_congr_key {payload : List Byte} {flags : PacketFlags} {key key' : Option (List Byte)}
    (h : cipherKey flags key = cipherKey flags key') :
    encodeProgram payload key flags = encodeProgram payload key' flags := by
  rw [encodeProgram, encodeProgram, h]

/-- Settles O51: the packet's key is the first of the two, and a disabled cipher makes every key the same. -/
theorem finalizeResolvesTheKey : Obligations.FinalizeResolvesTheKey := by
  intro p k arg
  refine ⟨fun h => ?_, fun h => ?_, ?_⟩
  · rw [finalizeProgram, resolveKey, h, Option.some_or]
  · rw [finalizeProgram, resolveKey, h, Option.none_or]
  · rintro (h | ⟨h, rfl⟩)
    · exact encodeProgram_congr_key (by rw [cipherKey_disabled h, cipherKey_disabled h])
    · rw [finalizeProgram, resolveKey, h, Option.none_or]

/-! ### `decode` -/

/-- What `decode` makes of a body that passed its checks (R152 steps 4 to 6, R157). -/
def decodedBody (flags : PacketFlags) (key : Option (List Byte)) (body : List Byte) : Except ErrorKind Packet :=
  match cipherKey flags key with
  | none => .ok (decodedPacket key body)
  | some k => ((decryptBytes k body).bind innerPayload).map (decodedPacket key)

theorem decodedBody_of_no_cipher {flags : PacketFlags} {key : Option (List Byte)} (hc : cipherKey flags key = none)
    (body : List Byte) : decodedBody flags key body = .ok (decodedPacket key body) := by
  rw [decodedBody, hc]

theorem decodedBody_of_cipher {flags : PacketFlags} {key : Option (List Byte)} {k : List Byte}
    (hc : cipherKey flags key = some k) (body : List Byte) :
    decodedBody flags key body = ((decryptBytes k body).bind innerPayload).map (decodedPacket key) := by
  rw [decodedBody, hc]

/-- `decode` is its four checks in order, and then its body. -/
theorem decodeFrame_eq (raw : List Byte) (key : Option (List Byte)) (check : Bool) (flags : PacketFlags) :
    decodeFrame raw key check flags =
      if raw.length < bodyOffset flags then .error .frameTooShort
      else if maxFrame < raw.length then .error .lengthMismatch
      else if check && !lengthMatches raw then .error .lengthMismatch
      else if check && flags.checksumEnabled && !checksumMatches raw then .error .checksumMismatch
      else decodedBody flags key (raw.drop (bodyOffset flags)) := by
  unfold decodeFrame
  cases hc : cipherKey flags key with
  | none => rw [decodedBody_of_no_cipher hc]
  | some k =>
    rw [decodedBody_of_cipher hc]
    dsimp only
    cases decryptBytes k (raw.drop (bodyOffset flags)) with
    | error e => rfl
    | ok d =>
      dsimp only [Except.bind]
      cases innerPayload d <;> rfl

/-- `decode` where every check passes. -/
theorem decodeFrame_of_checks {raw : List Byte} {flags : PacketFlags} (hlo : bodyOffset flags ≤ raw.length)
    (hhi : raw.length ≤ maxFrame) (hlen : lengthMatches raw = true) (hsum : checksumMatches raw = true)
    (key : Option (List Byte)) (check : Bool) :
    decodeFrame raw key check flags = decodedBody flags key (raw.drop (bodyOffset flags)) := by
  rw [decodeFrame_eq, if_neg (by omega), if_neg (by omega), hlen, hsum, if_neg (by simp), if_neg (by simp)]

/-! ### The outer frame -/

theorem outerFrame_no_checksum {flags : PacketFlags} (h : flags.checksumEnabled ≠ true) (body : List Byte) :
    outerFrame flags body = toLE16 body.length ++ body := by
  simp [outerFrame, checksumField, h]

section
variable {flags : PacketFlags} (h : flags.checksumEnabled = true) (body : List Byte)
include h

/-- R141, R148 step 5. -/
theorem outerFrame_checksum :
    outerFrame flags body = toLE16 (4 + body.length) ++ (toLE32 (adler32 body) ++ body) := by
  simp [outerFrame, checksumField, h, wireChecksum_eq]

theorem outerFrame_length : (outerFrame flags body).length = 6 + body.length := by
  rw [outerFrame_checksum h]
  simp
  omega

theorem outerFrame_drop_six : (outerFrame flags body).drop 6 = body := by
  rw [outerFrame_checksum h, ← List.append_assoc]
  exact List.drop_left' (by simp)

theorem outerFrame_slice_checksum : slice (outerFrame flags body) 2 6 = toLE32 (adler32 body) := by
  rw [outerFrame_checksum h, slice, List.drop_left' (by simp)]
  exact List.take_left' rfl

theorem outerFrame_lengthMatches (hfit : 4 + body.length ≤ maxOuter) :
    lengthMatches (outerFrame flags body) = true := by
  have hslice : slice (outerFrame flags body) 0 2 = toLE16 (4 + body.length) := by
    rw [outerFrame_checksum h]
    exact List.take_left' (by simp)
  rw [lengthMatches, hslice, ofLE16_toLE16 hfit, outerFrame_length h, beq_iff_eq]
  omega

theorem outerFrame_checksumMatches : checksumMatches (outerFrame flags body) = true := by
  rw [checksumMatches, outerFrame_drop_six h, outerFrame_slice_checksum h, ofLE32_toLE32, beq_self_eq_true]

/-- An outer frame is valid, in R154's words. -/
theorem outerFrame_valid (hfit : 4 + body.length ≤ maxOuter) :
    6 ≤ (outerFrame flags body).length ∧
      ofLE16 (slice (outerFrame flags body) 0 2) + 2 = (outerFrame flags body).length ∧
      ofLE32 (slice (outerFrame flags body) 2 6) = adler32 ((outerFrame flags body).drop 6) :=
  ⟨by rw [outerFrame_length h]; omega, beq_iff_eq.1 (outerFrame_lengthMatches h body hfit),
    (beq_iff_eq.1 (outerFrame_checksumMatches h body)).symm⟩

/-- `decode` of an outer frame is `decode` of its body. -/
theorem decodeFrame_outerFrame (hfit : 4 + body.length ≤ maxOuter) (key : Option (List Byte)) (check : Bool) :
    decodeFrame (outerFrame flags body) key check flags = decodedBody flags key body := by
  have hoff : bodyOffset flags = 6 := by rw [bodyOffset, checksumSize, if_pos h]
  have hlen := outerFrame_length h body
  have hmax : maxFrame = maxOuter + 2 := rfl
  rw [decodeFrame_of_checks (by omega) (by omega) (outerFrame_lengthMatches h body hfit)
    (outerFrame_checksumMatches h body), hoff, outerFrame_drop_six h]

end

/-! ### The inner frame -/

/-- `decrypt` undoes `encrypt` up to the padding (41_cipher.md R123), for a 16-byte key. -/
theorem decryptBytes_ecbEnc {k : List Byte} (hk : k.length = 16) (d : List Byte) :
    decryptBytes k (ecbEnc cfg.blockCipher (keyOfBytes k) (padded d)) = .ok (padded d) := by
  have hlen : (ecbEnc cfg.blockCipher (keyOfBytes k) (padded d)).length = (padded d).length :=
    ecbMap_length _ (padded_length_mod d)
  have hkey : k.length = cfg.keyBytes := hk
  rw [decryptBytes, if_neg (not_not.2 hkey), if_neg (not_not.2 (hlen ▸ padded_length_mod d)),
    ecbDec_ecbEnc cfg_blockCipher_inverse _ (padded_length_mod d)]

/-- The payload comes out of its inner frame, whatever follows it (R142, R152 step 5). -/
theorem innerPayload_innerFrame_append {p : List Byte} (hp : p.length ≤ 65535) (pad : List Byte) :
    innerPayload (innerFrame p ++ pad) = .ok p := by
  have hl : ofLE16 (slice (innerFrame p ++ pad) 0 2) = p.length := by
    rw [slice, innerFrame, List.append_assoc]
    exact (congrArg ofLE16 (List.take_left' (by simp))).trans (ofLE16_toLE16 hp)
  have hs : slice (innerFrame p ++ pad) 2 (2 + p.length) = p := by
    rw [slice, innerFrame, List.append_assoc, List.drop_left' (by simp)]
    exact List.take_left' (by omega)
  have hlen : (innerFrame p ++ pad).length = 2 + p.length + pad.length := by
    rw [List.length_append, innerFrame_length]
  rw [innerPayload, hl, hs, if_neg (by omega), if_neg (by omega)]

/-! ### `decode` after `encode` -/

/-- R159 for the functions of bytes, with the default flags and a 16-byte key: the frame is valid, and its packet holds
the payload. -/
theorem encodeFrame_roundTrip {p k : List Byte} (hp : p.length ≤ 65526) (hk : k.length = 16) (check : Bool) :
    ∃ body, 4 + body.length ≤ maxOuter ∧
      encodeFrame p (some k) defaultFlags = .ok (outerFrame defaultFlags body) ∧
      decodeFrame (outerFrame defaultFlags body) (some k) check defaultFlags = .ok (decodedPacket (some k) p) := by
  have hcs : checksumSize defaultFlags = 4 := rfl
  have hfit := (cipher_fits_iff defaultFlags p.length).2 hp
  have hbody : 4 + (ecbEnc cfg.blockCipher (keyOfBytes k) (padded (innerFrame p))).length ≤ maxOuter := by
    rw [ecbEnc, ecbMap_length _ (padded_length_mod _), padded_length, innerFrame_length]
    omega
  refine ⟨_, hbody, ?_, ?_⟩
  · rw [encodeFrame_of_cipher (cipherKey_enabled rfl _) hk, if_neg hfit]
  · rw [decodeFrame_outerFrame rfl _ hbody, decodedBody_of_cipher (cipherKey_enabled rfl _),
      decryptBytes_ecbEnc hk, padded, Except.bind, innerPayload_innerFrame_append (by omega), Except.map]

end Sys2Proof.Machine
end

section
/-! PROOFS. The sequences `ENCODE`, `DECODE` and `ISVALID`, run from an idle engine, compute `encode`, `decode` and
`is_valid` (42_codec_sequences.md R151, R153, R155). -/

namespace Sys2Proof.Machine

variable {α : Type}

/-- From `s`, under the schedule, the program ends with `a`, the engine idle and `HAZ` as it was. -/
def EndsWith (p : Prog α) (sched : List Nat) (s : State) (a : α) : Prop :=
  ∃ t, p.run sched s = .next (a, t) ∧ t.status.busy = false ∧ t.status.haz = s.status.haz

theorem EndsWith.done {s : State} (hb : s.status.busy = false) (sched : List Nat) (a : α) :
    EndsWith (.done a) sched s a := ⟨s, rfl, hb, rfl⟩

/-- A program ends as what is left of it does. -/
theorem EndsWith.of_run {p q : Prog α} {sched sched' : List Nat} {s t : State} {a : α}
    (h : p.run sched s = q.run sched' t) (hz : t.status.haz = s.status.haz) (hq : EndsWith q sched' t a) :
    EndsWith p sched s a := by
  obtain ⟨u, hu, hb, hzu⟩ := hq
  exact ⟨u, h.trans hu, hb, hzu.trans hz⟩

theorem orRaise_none {st : Word} (h : statusError st = none) (p : Prog (Except ErrorKind α)) : orRaise st p = p := by
  rw [orRaise, h]

theorem orRaise_some {st : Word} {e : ErrorKind} (h : statusError st = some e) (p : Prog (Except ErrorKind α)) :
    orRaise st p = .done (.error e) := by
  rw [orRaise, h]

/-- A command that ends with an error ends the sequence with it (R151, R153). -/
theorem EndsWith.cmd_error {i : Instr} {e : ErrorKind} {p : Prog (Except ErrorKind α)} {sched : List Nat} {s : State}
    (hb : s.status.busy = false) (h : commandCheck i s = some e) :
    EndsWith (cmd i (.wait fun st => orRaise st p)) sched s (.error e) := by
  obtain ⟨st, t, hr, hst, hsame⟩ := run_cmd_wait_error (f := fun st => orRaise st p) (sched := sched) hb h
  exact .of_run hr hsame.haz (orRaise_some hst p ▸ .done (hsame.busy.trans hb) _ _)

/-! ### The operand and the key, loaded -/

/-- `t` is `s` with the operand `bs`, which fits the buffer. -/
structure OperandLoaded (bs : List Byte) (s t : State) : Prop where
  key : t.key = s.key
  klen : t.klen = s.klen
  busy : t.status.busy = s.status.busy
  haz : t.status.haz = s.status.haz
  fits : t.len.toNat ≤ cfg.bufsz
  operand : operandBytes t = bs

theorem run_loadData_loaded {bs : List Byte} (p : Prog α) (sched : List Nat) {s : State}
    (hb : s.status.busy = false) (h : bs.length ≤ cfg.bufsz) :
    ∃ t sched', (loadData bs p).run sched s = p.run sched' t ∧ OperandLoaded bs s t := by
  obtain ⟨t, hr, ht, hlen, hop⟩ := run_loadData (p := p) (sched := sched) hb h
  exact ⟨t, _, hr, by rw [ht], by rw [ht], by rw [ht], by rw [ht], hlen ▸ h, hop⟩

/-- `t` is `s` with the key `k`: `KLEN` passes the engine's check exactly for a key of 16 bytes. -/
structure KeyLoaded (k : List Byte) (s t : State) : Prop where
  klen : t.klen.toNat = cfg.keyBytes ↔ k.length = cfg.keyBytes
  key : k.length = cfg.keyBytes → t.key = keyOfBytes k
  busy : t.status.busy = s.status.busy
  haz : t.status.haz = s.status.haz
  len : t.len = s.len
  operand : operandBytes t = operandBytes s

theorem run_loadKey_loaded (k : List Byte) (p : Prog α) (sched : List Nat) {s : State}
    (hb : s.status.busy = false) :
    ∃ t sched', (loadKey k p).run sched s = p.run sched' t ∧ KeyLoaded k s t := by
  obtain ⟨t, sched', hr, ht, hklen, hkey⟩ := run_loadKey k (p := p) (sched := sched) hb
  have hlen : t.len = s.len := by rw [ht]
  exact ⟨t, sched', hr, hklen, hkey, by rw [ht], by rw [ht], hlen,
    operandBytes_congr (by rw [ht]) (by rw [ht]) hlen⟩

/-! ### `ISVALID` -/

/-- The comparisons of R155, as R154 writes them. -/
theorem checksum_and_length_eq_decide (raw : List Byte) (h : 6 ≤ raw.length) :
    (adler32 (raw.drop 6) == ofLE32 (slice raw 2 6) && lengthMatches raw) =
      decide (6 ≤ raw.length ∧ ofLE16 (slice raw 0 2) + 2 = raw.length ∧
        ofLE32 (slice raw 2 6) = adler32 (raw.drop 6)) := by
  rw [Bool.eq_iff_iff, Bool.and_eq_true, beq_iff_eq, lengthMatches, beq_iff_eq, decide_eq_true_iff]
  exact ⟨fun ⟨hc, hl⟩ => ⟨h, hl, hc.symm⟩, fun ⟨_, hl, hc⟩ => ⟨hc.symm, hl⟩⟩

/-- Settles O52: the engine computes the checksum of the rest, and a sequence too long for a frame is too long for its
length field. -/
theorem isValidSequenceComputesIsValid : Obligations.IsValidSequenceComputesIsValid := by
  intro raw sched s hb
  have hmax : maxFrame = 65537 := rfl
  have hbuf : cfg.bufsz = 65544 := rfl
  unfold isValidProgram
  split
  next h =>
    have hle := ofLE16_le (slice raw 0 2)
    exact ⟨s, by rw [run_done, decide_eq_false (by omega)], rfl, rfl, rfl, hb⟩
  next h =>
    obtain ⟨t, sched', hload, hloaded⟩ := run_loadData_loaded (bs := raw.drop 6)
      (checksumData fun c => .done (c == ofLE32 (slice raw 2 6) && lengthMatches raw)) sched hb
      (by rw [List.length_drop]; omega)
    have hbt := hloaded.busy.trans hb
    obtain ⟨u, hsum, hsame⟩ := run_checksumData
      (p := fun c => .done (c == ofLE32 (slice raw 2 6) && lengthMatches raw)) (sched := sched') hbt hloaded.fits
    rw [run_done, hloaded.operand, checksum_and_length_eq_decide raw (by omega)] at hsum
    exact ⟨u, hload.trans hsum, hsame.key.trans hloaded.key, hsame.klen.trans hloaded.klen,
      hsame.haz.trans hloaded.haz, hsame.busy.trans hbt⟩

/-! ### `ENCODE` -/

/-- The last lines of R151: the outer frame of the body in the buffer. -/
theorem EndsWith.sealFrame (flags : PacketFlags) {sched : List Nat} {s : State} (hb : s.status.busy = false)
    (h : s.len.toNat ≤ cfg.bufsz) :
    EndsWith (sealFrame flags) sched s (.ok (outerFrame flags (operandBytes s))) := by
  unfold Machine.sealFrame
  split
  next hc =>
    obtain ⟨t, hsum, hsame⟩ := run_checksumData (p := fun c => readData fun body =>
      .done (Except.ok (ε := ErrorKind) (toLE16 (4 + body.length) ++ toLE32 c ++ body))) (sched := sched) hb h
    have hbt := hsame.busy.trans hb
    obtain ⟨u, hread, hsame'⟩ := run_readData (p := fun body =>
      .done (Except.ok (ε := ErrorKind) (toLE16 (4 + body.length) ++ toLE32 (adler32 (operandBytes s)) ++ body)))
      (sched := sched.drop 3) hbt (by rw [hsame.len]; exact h)
    rw [hsame.operand, List.append_assoc, ← outerFrame_checksum hc] at hread
    exact .of_run hsum hsame.haz (.of_run hread hsame'.haz (.done (hsame'.busy.trans hbt) _ _))
  next hc =>
    obtain ⟨t, hread, hsame⟩ := run_readData (p := fun body =>
      .done (Except.ok (ε := ErrorKind) (toLE16 body.length ++ body))) (sched := sched) hb h
    rw [outerFrame_no_checksum hc]
    exact .of_run hread hsame.haz (.done (hsame.busy.trans hb) _ _)

/-- The lines of R151 with a cipher: the plaintext enciphered and sealed, or the error of a key that is not 16 bytes
long. -/
theorem EndsWith.encipher (flags : PacketFlags) (k : List Byte) {d : List Byte} {sched : List Nat} {s : State}
    (hb : s.status.busy = false) (h : d.length ≤ cfg.bufsz) :
    EndsWith (loadKey k (loadData d (cmd .enc (.wait fun st => orRaise st (Machine.sealFrame flags))))) sched s
      ((encryptBytes k d).map (outerFrame flags)) := by
  obtain ⟨t, sched', hrkey, hkey⟩ := run_loadKey_loaded k
    (loadData d (cmd .enc (.wait fun st => orRaise st (Machine.sealFrame flags)))) sched hb
  obtain ⟨u, sched'', hrload, hload⟩ := run_loadData_loaded
    (cmd .enc (.wait fun st => orRaise st (Machine.sealFrame flags))) sched' (hkey.busy.trans hb) h
  have hbu : u.status.busy = false := hload.busy.trans (hkey.busy.trans hb)
  refine .of_run hrkey hkey.haz (.of_run hrload hload.haz ?_)
  unfold encryptBytes
  split
  next hk =>
    have hcheck : encCheck u = none := encCheck_none.2 ⟨hload.fits, hload.klen ▸ hkey.klen.2 hk⟩
    obtain ⟨st, v, hcmd, hst, hbv, hzv, hlv, hopv⟩ := run_enc_wait (sched := sched'')
      (f := fun st => orRaise st (Machine.sealFrame flags)) hbu hcheck
    rw [orRaise_none hst] at hcmd
    rw [hload.operand, hload.key, hkey.key hk] at hopv
    refine .of_run hcmd hzv ?_
    rw [Except.map, ← hopv]
    exact .sealFrame flags hbv (hlv ▸ pad8_le_bufsz hload.fits)
  next hk =>
    have hne : u.klen.toNat ≠ cfg.keyBytes := hload.klen ▸ mt hkey.klen.1 hk
    refine .cmd_error hbu ?_
    rw [commandCheck, encCheck, rangeCheck_none.2 hload.fits, keyCheck_of_ne hne, Option.none_or]

/-- Settles O53: the host's own checks are those of `encode`, and what passes them fits the buffer. -/
theorem encodeSequenceComputesEncode : Obligations.EncodeSequenceComputesEncode := by
  intro payload key flags sched s hb
  change EndsWith _ _ _ _
  have hmax : cfg.maxPayload = 65535 := rfl
  have hbuf : cfg.bufsz = 65544 := rfl
  unfold encodeProgram encodeFrame
  split
  next => exact .done hb _ _
  next hp =>
    cases cipherKey flags key with
    | some k =>
      simp only
      split
      next => exact .done hb _ _
      next =>
        have henc := EndsWith.encipher flags k (d := innerFrame payload) (sched := sched) hb
          (by rw [innerFrame_length]; omega)
        cases he : encryptBytes k (innerFrame payload) <;> rw [he] at henc <;> exact henc
    | none =>
      simp only
      split
      next => exact .done hb _ _
      next =>
        split
        next =>
          obtain ⟨t, sched', hrload, hload⟩ := run_loadData_loaded (bs := payload) (sealFrame flags) sched hb
            (by omega)
          exact .of_run hrload hload.haz
            (hload.operand ▸ .sealFrame flags (hload.busy.trans hb) hload.fits)
        next hc =>
          rw [outerFrame_no_checksum hc]
          exact .done hb _ _

/-! ### `DECODE` -/

/-- `rbs` (R89) below `LEN` reads a slice of the operand, and only the log of values read changes. -/
theorem EndsWith.rbs_operand {i n : Nat} {p : List Byte → Prog α} {sched : List Nat} {s : State} {a : α}
    (hb : s.status.busy = false) (hbuf : s.len.toNat ≤ cfg.bufsz) (h : i + n ≤ s.len.toNat)
    (hp : ∀ sched' t, SameData s t → EndsWith (p (slice (operandBytes s) i (i + n))) sched' t a) :
    EndsWith (rbs i n p) sched s a := by
  obtain ⟨log, hr⟩ := run_rbs (p := p) (sched := sched) hb (h.trans hbuf)
  rw [← slice_operand h] at hr
  exact .of_run hr rfl (hp _ _ ⟨rfl, rfl, rfl, rfl, rfl, rfl, rfl⟩)

/-- The last lines of R153: the payload of the inner frame in the buffer, or the error of one that does not hold it. -/
theorem EndsWith.takePayload (packet : List Byte → Packet) {sched : List Nat} {s : State} (hb : s.status.busy = false)
    (h : s.len.toNat ≤ cfg.bufsz) :
    EndsWith (takePayload s.len.toNat packet) sched s ((innerPayload (operandBytes s)).map packet) := by
  unfold Machine.takePayload innerPayload
  rw [operandBytes_length]
  split
  next => exact .done hb _ _
  next hshort =>
    refine .rbs_operand hb h (by omega) fun sched' t ht => ?_
    have hbt := ht.busy.trans hb
    rw [Nat.zero_add]
    split
    next => exact .done hbt _ _
    next hlong =>
      refine .rbs_operand hbt (ht.len ▸ h) (by rw [ht.len]; omega) fun sched'' u hu => ?_
      rw [ht.operand]
      exact .done (hu.busy.trans hbt) _ _

/-- The lines of R153 from `key key` on: the body in the buffer deciphered and its payload taken, or the error of the key,
of the body's length or of the inner frame. -/
theorem EndsWith.decipherBody (k : List Byte) (packet : List Byte → Packet) {sched : List Nat} {s : State}
    (hb : s.status.busy = false) (h : s.len.toNat ≤ cfg.bufsz) :
    EndsWith (decipherBody k s.len.toNat packet) sched s
      (((decryptBytes k (operandBytes s)).bind innerPayload).map packet) := by
  obtain ⟨t, sched', hrkey, hkey⟩ := run_loadKey_loaded k
    (cmd .dec (.wait fun st => orRaise st (Machine.takePayload s.len.toNat packet))) sched hb
  have hbt := hkey.busy.trans hb
  have hlen : lenNat t = s.len.toNat := congrArg BitVec.toNat hkey.len
  have hfits : lenNat t ≤ cfg.bufsz := hlen.trans_le h
  refine .of_run hrkey hkey.haz ?_
  unfold decryptBytes
  rw [operandBytes_length, ← hlen]
  split
  next hk =>
    refine .cmd_error hbt ?_
    rw [commandCheck, decCheck, rangeCheck_none.2 hfits, keyCheck_of_ne (mt hkey.klen.1 hk), Option.none_or,
      Option.some_or]
  next hk =>
    rw [not_not] at hk
    split
    next hm =>
      refine .cmd_error hbt ?_
      rw [commandCheck, decCheck, rangeCheck_none.2 hfits, keyCheck_none.2 (hkey.klen.2 hk), alignCheck_of_ne hm,
        Option.none_or, Option.none_or]
    next hm =>
      obtain ⟨st, u, hcmd, hst, hbu, hzu, hlu, hopu⟩ := run_dec_wait (sched := sched')
        (f := fun st => orRaise st (Machine.takePayload (lenNat t) packet)) hbt
        (decCheck_none.2 ⟨⟨hfits, hkey.klen.2 hk⟩, not_not.1 hm⟩)
      rw [orRaise_none hst] at hcmd
      rw [hkey.operand, hkey.key hk] at hopu
      refine .of_run hcmd hzu ?_
      rw [Except.bind, ← hopu, lenNat, ← hlu]
      exact .takePayload packet hbu (hlu ▸ hfits)

/-- What `DECODE` does with a body that passed its checks. The body is in the buffer where the engine is to decipher it. -/
theorem EndsWith.decodeBody {flags : PacketFlags} {key : Option (List Byte)} {body : List Byte} {sched : List Nat}
    {s : State} (hb : s.status.busy = false)
    (h : (cipherKey flags key).isSome → s.len.toNat ≤ cfg.bufsz ∧ operandBytes s = body) :
    EndsWith (decodeBody flags key body) sched s (decodedBody flags key body) := by
  unfold Machine.decodeBody
  cases hc : cipherKey flags key with
  | none =>
    rw [decodedBody_of_no_cipher hc]
    exact .done hb _ _
  | some k =>
    obtain ⟨hlen, rfl⟩ := h (by rw [hc]; rfl)
    rw [decodedBody_of_cipher hc, operandBytes_length]
    exact .decipherBody k _ hb hlen

/-- R153's comparison of the checksums is R154's. -/
theorem EndsWith.orMismatch {raw : List Byte} {p : Prog (Except ErrorKind Packet)} {sched : List Nat} {s : State}
    {a : Except ErrorKind Packet} (hb : s.status.busy = false) (hp : EndsWith p sched s a) :
    EndsWith (orMismatch raw p (adler32 (raw.drop 6))) sched s
      (if !checksumMatches raw then .error .checksumMismatch else a) := by
  unfold Machine.orMismatch checksumMatches
  by_cases h : adler32 (raw.drop 6) = ofLE32 (slice raw 2 6)
  · simpa [h] using hp
  · simpa [h] using EndsWith.done hb _ _

/-- The lines of R153 with `check` and a checksum: the body loaded, its checksum compared, and then the body decoded. -/
theorem EndsWith.checkedBody {flags : PacketFlags} (key : Option (List Byte)) {raw : List Byte} {sched : List Nat}
    {s : State} (hb : s.status.busy = false) (h : (raw.drop 6).length ≤ cfg.bufsz) :
    EndsWith (loadData (raw.drop 6) (checksumData (Machine.orMismatch raw (Machine.decodeBody flags key (raw.drop 6)))))
      sched s (if !checksumMatches raw then .error .checksumMismatch else decodedBody flags key (raw.drop 6)) := by
  obtain ⟨t, sched', hrload, hload⟩ := run_loadData_loaded
    (checksumData (Machine.orMismatch raw (Machine.decodeBody flags key (raw.drop 6)))) sched hb h
  have hbt := hload.busy.trans hb
  obtain ⟨u, hrsum, hsame⟩ := run_checksumData
    (p := Machine.orMismatch raw (Machine.decodeBody flags key (raw.drop 6))) (sched := sched') hbt hload.fits
  have hbu := hsame.busy.trans hbt
  rw [hload.operand] at hrsum
  refine .of_run hrload hload.haz (.of_run hrsum hsame.haz (.orMismatch hbu (.decodeBody hbu fun _ => ?_)))
  exact ⟨hsame.len ▸ hload.fits, hsame.operand.trans hload.operand⟩

/-- The lines of R153 and R157 without a checksum to compare: the body is loaded only to be deciphered. -/
theorem EndsWith.uncheckedBody {flags : PacketFlags} {key : Option (List Byte)} {body : List Byte} {sched : List Nat}
    {s : State} (hb : s.status.busy = false) (h : body.length ≤ cfg.bufsz) :
    EndsWith (if (cipherKey flags key).isSome then loadData body (Machine.decodeBody flags key body)
      else Machine.decodeBody flags key body) sched s (decodedBody flags key body) := by
  split
  next =>
    obtain ⟨t, sched', hrload, hload⟩ := run_loadData_loaded (Machine.decodeBody flags key body) sched hb h
    exact .of_run hrload hload.haz (.decodeBody (hload.busy.trans hb) fun _ => ⟨hload.fits, hload.operand⟩)
  next hkey => exact .decodeBody hb fun hk => absurd hk hkey

/-- Settles O54: the host's own checks are those of `decode`, and a body that passes them fits the buffer. -/
theorem decodeSequenceComputesDecode : Obligations.DecodeSequenceComputesDecode := by
  intro raw key check flags sched s hb
  change EndsWith _ _ _ _
  have hmax : maxFrame = 65537 := rfl
  have hbuf : cfg.bufsz = 65544 := rfl
  rw [decodeFrame_eq]
  unfold decodeProgram
  split
  next => exact .done hb _ _
  next =>
    split
    next => exact .done hb _ _
    next hlong =>
      have hfit : (raw.drop (bodyOffset flags)).length ≤ cfg.bufsz := by rw [List.length_drop]; omega
      split
      next => exact .done hb _ _
      next =>
        split
        next hsum =>
          have hoff : bodyOffset flags = 6 := by
            rw [bodyOffset, checksumSize, if_pos (Bool.and_eq_true_iff.1 hsum).2]
          rw [hoff] at hfit ⊢
          rw [hsum, Bool.true_and]
          exact .checkedBody key hb hfit
        next hsum =>
          rw [Bool.not_eq_true] at hsum
          rw [hsum, Bool.false_and, if_neg (c := false = true) Bool.false_ne_true]
          exact .uncheckedBody hb hfit

/-! ### The round trip -/

/-- Settles O55: by the three refinements it is a fact about `encode`, `decode` and `is_valid` on one frame. -/
theorem codecRoundTrip : Obligations.CodecRoundTrip := by
  intro p k check sched sched' sched'' s hp hk hb
  obtain ⟨body, hfit, henc, hdec⟩ := encodeFrame_roundTrip hp hk check
  obtain ⟨t, ht, hbt, -⟩ := encodeSequenceComputesEncode p (some k) defaultFlags sched s hb
  obtain ⟨u, hu, hbu, -⟩ := decodeSequenceComputesDecode (outerFrame defaultFlags body) (some k) check defaultFlags
    sched' t hbt
  obtain ⟨v, hv, -⟩ := isValidSequenceComputesIsValid (outerFrame defaultFlags body) sched'' u hbu
  rw [henc] at ht
  rw [hdec] at hu
  rw [decide_eq_true (outerFrame_valid rfl body hfit)] at hv
  exact ⟨_, t, u, v, _, ht, hu, rfl, hv⟩

end Sys2Proof.Machine
end

section
/-! PROOFS. Errors (60_exceptions.md R166, R170 to R173): their order, what they change, and the same command issued
again. -/

namespace Sys2Proof.Machine

/-- A command ends with `ERR` set exactly where its check names an error, which it raises (R171). -/
theorem exec_err_cases {i : Instr} {s t : State} (h : exec i s = .next t) (herr : t.status.err = true) :
    ∃ e, EngineError e ∧ commandCheck i s = some e ∧ t = raise e s := by
  rcases exec_cases h with hraised | ⟨-, rfl⟩
  · exact hraised
  · rw [finish_status, statusCompleted_err] at herr
    cases herr

theorem exec_csupd_range {s : State} (h : cfg.bufsz < s.len.toNat) :
    exec .csupd s = .next (raise .lengthOutOfRange s) :=
  exec_of_check_some (i := .csupd) (rangeCheck_of_lt h)

theorem exec_csum_range {s : State} (h : cfg.bufsz < s.len.toNat) :
    exec .csum s = .next (raise .lengthOutOfRange s) :=
  exec_of_check_some (i := .csum) (rangeCheck_of_lt h)

/-- The *complete* step of a word that does not decode (30_encoding.md R78). -/
theorem completeStep_of_reject {s : State} {r : DecodeReject} (h : decodeWord s.pend = .error r) :
    completeStep s = .next (raise .illegalCommand s) :=
  completeStep_of_illegal fun i hi => by rw [h] at hi; cases hi

/-- Settles O16: the decoder comes before every check, and each check is reached only where those before it name no
error. -/
theorem errorsAreReportedInPriorityOrder : Obligations.ErrorsAreReportedInPriorityOrder := by
  intro s
  refine ⟨fun r hr => completeStep_of_reject hr, fun hlen i hi => ?_, fun hlen hk i hi => ?_, exec_dec_align⟩
  · simp only [List.mem_cons, List.not_mem_nil, or_false] at hi
    rcases hi with rfl | rfl | rfl | rfl
    · exact exec_csupd_range hlen
    · exact exec_csum_range hlen
    · exact exec_enc_range hlen
    · exact exec_dec_range hlen
  · rcases List.mem_pair.1 hi with rfl | rfl
    · exact exec_enc_key hlen hk
    · exact exec_dec_key hlen hk

/-- The codes of the errors a command's checks can name (R165, R166). -/
theorem EngineError.code {e : ErrorKind} (h : EngineError e) :
    errorCode e = 4 ∨ errorCode e = 5 ∨ errorCode e = 9 := by
  rcases h with rfl | rfl | rfl
  · exact .inr (.inr rfl)
  · exact .inl rfl
  · exact .inr (.inl rfl)

/-- Settles O17: a command that sets `ERR` has raised an error of its check, which writes `STATUS` alone. -/
theorem anErrorChangesOnlyStatus : Obligations.AnErrorChangesOnlyStatus := by
  intro i s t h herr
  obtain ⟨e, he, -, rfl⟩ := exec_err_cases h herr
  exact ⟨rfl, he.code⟩

/-- The *complete* step of an accepted command runs it (30_encoding.md R85, R86). -/
theorem completeStep_accept_encode (i : Instr) (s : State) :
    completeStep (accept (encode i) s) = exec i (accept (encode i) s) :=
  completeStep_of_decode (by rw [accept_pend, decodeWord_encode])

/-- An accepted command has the operands of the state it was issued in (30_encoding.md R85). -/
theorem commandCheck_accept (i : Instr) (w : Word) (s : State) : commandCheck i (accept w s) = commandCheck i s :=
  commandCheck_congr (accept_len w s) (accept_klen w s) i

theorem commandCheck_raise (i : Instr) (e : ErrorKind) (s : State) : commandCheck i (raise e s) = commandCheck i s :=
  commandCheck_congr (raise_len e s) (raise_klen e s) i

/-- Settles O18: neither the error nor acceptance changes an operand, so the same check names the same error again. -/
theorem reissuedCommandGivesTheSameError : Obligations.ReissuedCommandGivesTheSameError := by
  intro i s t h herr
  obtain ⟨e, -, hcheck, rfl⟩ := exec_err_cases h herr
  have hsame : commandCheck i (accept (encode i) (raise e s)) = some e := by
    rw [commandCheck_accept, commandCheck_raise, hcheck]
  have hcomplete : completeStep (accept (encode i) (raise e s)) =
      .next (raise e (accept (encode i) (raise e s))) := by
    rw [completeStep_accept_encode, exec_of_check_some hsame]
  exact ⟨_, _, (commandWriteIsAcceptedWhileIdle (raise e s) (encode i)).1 rfl, rfl, rfl, hcomplete, rfl⟩

end Sys2Proof.Machine
end

section
/-! PROOFS. Where the key goes (60_exceptions.md R177; 10_state.md R41): a step from two states that differ in the key
alone, followed through each of the things a step is. -/

namespace Sys2Proof.Machine

/-- `u` is `t` but for the key and, where `cipher` holds, the bytes of the buffer below `n`. -/
structure AgreeButKey (cipher : Prop) (n : Nat) (t u : State) : Prop where
  state : u = { t with key := u.key, buf := u.buf }
  buf : ¬ cipher → u.buf = t.buf
  above : ∀ i, n ≤ i → bufByte u i = bufByte t i

theorem agreeButKey_withKey (cipher : Prop) (n : Nat) (t : State) (k : Key) :
    AgreeButKey cipher n t { t with key := k } :=
  ⟨rfl, fun _ => rfl, fun _ _ => rfl⟩

theorem AgreeButKey.mono {c c' : Prop} {n : Nat} {t u : State} (h : AgreeButKey c n t u) (hc : c → c') :
    AgreeButKey c' n t u :=
  ⟨h.state, fun hn => h.buf (mt hc hn), h.above⟩

theorem AgreeButKey.finish {c : Prop} {n : Nat} {t u : State} (h : AgreeButKey c n t u) :
    AgreeButKey c n (finish t) (finish u) where
  state := congrArg Machine.finish h.state
  buf := h.buf
  above i hi := by rw [finish_bufByte, finish_bufByte, h.above i hi]

/-! ### The commands -/

/-- The key has no part in any other field of a command's effect. -/
theorem commandEffect_withKey (i : Instr) (k : Key) (s : State) :
    commandEffect i { s with key := k } =
      { commandEffect i s with
        key := (commandEffect i { s with key := k }).key
        buf := (commandEffect i { s with key := k }).buf } := by
  cases i with
  | csinit => rfl
  | csupd => rw [commandEffect_withKey_csupd]
  | csum => rw [commandEffect_withKey_csum]
  | enc => exact encEffect_withKey k s
  | dec => exact decEffect_withKey k s
  | keyclr => rfl

/-- Only `ENC` and `DEC` write the buffer (10_state.md R27). -/
theorem commandEffect_buf {i : Instr} (h : ¬ (i = .enc ∨ i = .dec)) (s : State) :
    (commandEffect i s).buf = s.buf := by
  cases i with
  | csinit => rfl
  | csupd => rfl
  | csum => rfl
  | enc => exact absurd (.inl rfl) h
  | dec => exact absurd (.inr rfl) h
  | keyclr => rfl

/-- No command that executes writes the buffer from `pad8(LEN)` on (41_cipher.md R121, R122). -/
theorem commandEffect_above {i : Instr} {s : State} (hc : commandCheck i s = none) {j : Nat}
    (hj : pad8 s.len.toNat ≤ j) : bufByte (commandEffect i s) j = bufByte s j := by
  have frame (h : ¬ (i = .enc ∨ i = .dec)) : bufByte (commandEffect i s) j = bufByte s j := by
    obtain ⟨-, -, -, -, hepoch, -⟩ := commandEffect_frame i s
    exact bufByte_congr (commandEffect_buf h s) hepoch j
  cases i with
  | enc => exact encEffect_above s hj
  | dec =>
    obtain ⟨-, hmod⟩ := decCheck_none.1 hc
    exact decEffect_above hmod ((le_pad8 _).trans hj)
  | csinit => exact frame (by decide)
  | csupd => exact frame (by decide)
  | csum => exact frame (by decide)
  | keyclr => exact frame (by decide)

theorem commandCheck_withKey (i : Instr) (k : Key) (s : State) :
    commandCheck i { s with key := k } = commandCheck i s :=
  commandCheck_congr (s := s) (t := { s with key := k }) rfl rfl i

/-- A command that executes brings the key into the buffer below `pad8(LEN)`, if it is `ENC` or `DEC`, and nowhere
else. -/
theorem commandEffect_agreeButKey {i : Instr} {s : State} (hc : commandCheck i s = none) (k : Key) :
    AgreeButKey (i = .enc ∨ i = .dec) (pad8 s.len.toNat) (commandEffect i s)
      (commandEffect i { s with key := k }) where
  state := commandEffect_withKey i k s
  buf h := by rw [commandEffect_buf h, commandEffect_buf h]
  above j hj := by
    rw [commandEffect_above hc hj, commandEffect_above ((commandCheck_withKey i k s).trans hc) hj]
    rfl

/-! ### The engine's turn -/

/-- The pending command is an `ENC` or a `DEC` that ends without error (R121, R122, R166). -/
def CipherExecutes (s : State) : Prop :=
  s.len.toNat ≤ cfg.bufsz ∧ s.klen = 16 ∧
    (s.pend = encode .enc ∨ (s.pend = encode .dec ∧ s.len.toNat % 8 = 0))

theorem cipherExecutes_of_check_none {i : Instr} {s : State} (hd : decodeWord s.pend = .ok i)
    (hc : commandCheck i s = none) (hi : i = .enc ∨ i = .dec) : CipherExecutes s := by
  have hp : s.pend = encode i := decodeWord_eq_ok_iff.1 hd
  rcases hi with rfl | rfl
  · obtain ⟨hlen, hk⟩ := encCheck_none.1 hc
    exact ⟨hlen, klen_toNat_iff.1 hk, .inl hp⟩
  · obtain ⟨⟨hlen, hk⟩, hmod⟩ := decCheck_none.1 hc
    exact ⟨hlen, klen_toNat_iff.1 hk, .inr ⟨hp, hmod⟩⟩

/-- The *complete* step takes the same branch whatever the key. -/
theorem completeStep_agreeButKey {s t : State} (h : completeStep s = .next t) (k : Key) :
    ∃ u, completeStep { s with key := k } = .next u ∧
      AgreeButKey (CipherExecutes s) (pad8 s.len.toNat) t u := by
  cases hd : decodeWord s.pend with
  | error r =>
    rw [completeStep_of_reject hd] at h
    cases h
    exact ⟨_, completeStep_of_reject (s := { s with key := k }) hd, agreeButKey_withKey _ _ _ k⟩
  | ok i =>
    rw [completeStep_of_decode hd] at h
    rw [completeStep_of_decode (s := { s with key := k }) hd]
    rcases exec_cases h with ⟨e, -, hc, rfl⟩ | ⟨hc, rfl⟩
    · exact ⟨_, exec_of_check_some ((commandCheck_withKey i k s).trans hc), agreeButKey_withKey _ _ _ k⟩
    · exact ⟨_, exec_of_check_none ((commandCheck_withKey i k s).trans hc),
        (commandEffect_agreeButKey hc k).finish.mono (cipherExecutes_of_check_none hd hc)⟩

theorem engineTurn_agreeButKey {s t : State} (h : engineTurn s = .next t) (k : Key) :
    ∃ u, engineTurn { s with key := k } = .next u ∧
      AgreeButKey (s.status.busy = true ∧ CipherExecutes s) (pad8 s.len.toNat) t u := by
  cases hb : s.status.busy with
  | false =>
    rw [engineTurn_idle hb] at h
    cases h
    exact ⟨_, engineTurn_idle (s := { s with key := k }) hb, agreeButKey_withKey _ _ _ k⟩
  | true =>
    rw [engineTurn_busy hb] at h
    obtain ⟨u, hu, hagree⟩ := completeStep_agreeButKey h k
    exact ⟨u, (engineTurn_busy (s := { s with key := k }) hb).trans hu, hagree.mono fun hx => ⟨rfl, hx⟩⟩

/-! ### The host's accesses -/

/-- No read returns the key or anything made from it but the buffer (10_state.md R41). -/
theorem readSpace_withKey (sp : Space) (off width : Nat) (k : Key) (s : State) :
    readSpace sp off width { s with key := k } =
      ((readSpace sp off width s).1, { (readSpace sp off width s).2 with key := k }) := by
  cases sp with
  | reg => simp only [readSpace, readReg]; split <;> rfl
  | buf => simp only [readSpace, readBufWord]; split <;> rfl

/-- A write stores the host's value, so the key it finds stays in the key. -/
theorem writeSpace_withKey (sp : Space) (off width : Nat) (v : Word) (k : Key) (s : State) :
    ∃ k', writeSpace sp off width v { s with key := k } = { writeSpace sp off width v s with key := k' } := by
  cases sp with
  | reg =>
    simp only [writeSpace, writeReg]
    repeat' split
    all_goals exact ⟨_, rfl⟩
  | buf => exact ⟨k, rfl⟩

theorem hostAccess_withKey {acc : Access} {s t : State} (h : hostAccess acc s = .next t) (k : Key) :
    ∃ k', hostAccess acc { s with key := k } = .next { t with key := k' } := by
  cases acc with
  | read sp off width =>
    have hr : accessRefusal sp off width = none := hostAccess_read_answers_iff.1 ⟨t, h⟩
    simp only [hostAccess, perform, hr] at h ⊢
    cases h
    exact ⟨k, by rw [readSpace_withKey]⟩
  | write sp off width v =>
    have hr : accessRefusal sp off width = none := hostAccess_write_answers_iff.1 ⟨t, h⟩
    simp only [hostAccess, perform, hr] at h ⊢
    cases h
    cases hb : s.status.busy with
    | true => exact ⟨k, rfl⟩
    | false =>
      obtain ⟨k', hw⟩ := writeSpace_withKey sp off width v k s
      exact ⟨k', by rw [if_neg (by decide), if_neg (by decide), hw]⟩

/-! ### The step -/

/-- Settles O40: a reset overwrites the key, an access of the host keeps it in the key, and an engine's turn brings it
into the buffer where it completes an `ENC` or a `DEC` that executes. -/
theorem keyReachesOnlyTheBuffer : Obligations.KeyReachesOnlyTheBuffer := by
  intro s t k h
  suffices hs : ∃ u, step { s with key := k } = .next u ∧
      AgreeButKey (completesCommand s = true ∧ CipherExecutes s) (pad8 s.len.toNat) t u by
    obtain ⟨u, hu, hagree⟩ := hs
    exact ⟨u, hu, hagree.state, hagree.buf, hagree.above⟩
  rcases step_cases h with ⟨hi, ht⟩ | ⟨acc, rest, hi, ht⟩ | ⟨rest, hi, ht⟩ | ⟨rest, hi, rfl⟩
  · have hcomp : completesCommand s = s.status.busy := by rw [completesCommand, hi]
    rw [step_nil (s := { s with key := k }) hi, hcomp]
    exact engineTurn_agreeButKey ht k
  · obtain ⟨k', hk'⟩ := hostAccess_withKey ht k
    rw [step_cons (s := { s with key := k }) hi]
    exact ⟨_, hk', agreeButKey_withKey _ _ _ k'⟩
  · have hcomp : completesCommand s = s.status.busy := by rw [completesCommand, hi]
    rw [step_cons (s := { s with key := k }) hi, hcomp]
    exact engineTurn_agreeButKey ht k
  · rw [step_cons (s := { s with key := k }) hi]
    exact ⟨_, rfl, agreeButKey_withKey _ _ _ _⟩

end Sys2Proof.Machine
end

section
/-! PROOFS. Which command may change which register or the buffer (70_reset_and_hazards.md R200, R202, R203). -/

namespace Sys2Proof.Machine

/-- Only `CSINIT`, `CSUPD` and `CSUM` write the accumulators (R202). -/
theorem commandEffect_accumulators {i : Instr} (h1 : i ≠ .csinit) (h2 : i ≠ .csupd) (h3 : i ≠ .csum) (s : State) :
    (commandEffect i s).a = s.a ∧ (commandEffect i s).b = s.b := by
  cases i with
  | csinit => exact absurd rfl h1
  | csupd => exact absurd rfl h2
  | csum => exact absurd rfl h3
  | enc => exact ⟨rfl, rfl⟩
  | dec => exact ⟨rfl, rfl⟩
  | keyclr => exact ⟨rfl, rfl⟩

/-- Only `KEYCLR` writes the key and `KLEN` (R203). -/
theorem commandEffect_key {i : Instr} (h : i ≠ .keyclr) (s : State) :
    (commandEffect i s).key = s.key ∧ (commandEffect i s).klen = s.klen := by
  cases i with
  | keyclr => exact absurd rfl h
  | csinit => exact ⟨rfl, rfl⟩
  | csupd => exact ⟨rfl, rfl⟩
  | csum => exact ⟨rfl, rfl⟩
  | enc => exact ⟨rfl, rfl⟩
  | dec => exact ⟨rfl, rfl⟩

/-- Only `ENC` writes `LEN` (R200). -/
theorem commandEffect_len {i : Instr} (h : i ≠ .enc) (s : State) : (commandEffect i s).len = s.len := by
  cases i with
  | enc => exact absurd rfl h
  | csinit => rfl
  | csupd => rfl
  | csum => rfl
  | dec => rfl
  | keyclr => rfl

/-- Settles O19: an error writes `STATUS` alone, and the effect of a command writes the registers that are its own. -/
theorem eachRegisterChangesOnlyByItsCommands : Obligations.EachRegisterChangesOnlyByItsCommands := by
  intro i s t h
  rcases exec_cases h with ⟨e, -, -, rfl⟩ | ⟨-, rfl⟩
  · exact ⟨fun _ _ _ => ⟨rfl, rfl⟩, fun _ => ⟨rfl, rfl⟩, fun _ => rfl, fun _ _ => rfl, rfl, rfl, rfl, rfl, rfl, rfl⟩
  · obtain ⟨hstatus, hframe⟩ := commandEffect_frame i s
    refine ⟨fun h1 h2 h3 => commandEffect_accumulators h1 h2 h3 s, fun hi => commandEffect_key hi s,
      fun hi => commandEffect_len hi s, fun he hd => commandEffect_buf (not_or.2 ⟨he, hd⟩) s, ?_, hframe⟩
    rw [finish_status, statusCompleted_haz, hstatus]

end Sys2Proof.Machine
end

section
/-! PROOFS. Where a step stops, and what a reset leaves (70_reset_and_hazards.md R190 to R192, R199). -/

namespace Sys2Proof.Machine

theorem hostAccess_read_refused {sp : Space} {off width : Nat} {r : Refusal}
    (h : accessRefusal sp off width = some r) (s : State) : hostAccess (.read sp off width) s = .refused r := by
  simp [hostAccess, perform, h]

theorem hostAccess_write_refused {sp : Space} {off width : Nat} {r : Refusal}
    (h : accessRefusal sp off width = some r) (v : Word) (s : State) :
    hostAccess (.write sp off width v) s = .refused r := by
  simp [hostAccess, perform, h]

/-- Settles O9: the engine's turn and a reset always answer, and an access of the host answers unless `accessRefusal`
names a reason, which is then the step's. -/
theorem onlyUndefinedAccessesStop : Obligations.OnlyUndefinedAccessesStop := by
  intro s
  match hi : s.inputs with
  | [] => rw [step_nil hi]; exact .inl (engineTurn_next s)
  | .engine :: rest => rw [step_cons hi]; exact .inl (engineTurn_next _)
  | .reset :: rest => rw [step_cons hi]; exact .inl ⟨_, rfl⟩
  | .host (.read sp off width) :: rest =>
    rw [step_cons hi]
    cases hr : accessRefusal sp off width with
    | none => exact .inl (hostAccess_read_answers_iff.2 hr)
    | some r => exact .inr ⟨rest, r, hostAccess_read_refused hr _, .inl ⟨sp, off, width, rfl, hr⟩⟩
  | .host (.write sp off width v) :: rest =>
    rw [step_cons hi]
    cases hr : accessRefusal sp off width with
    | none => exact .inl (hostAccess_write_answers_iff.2 hr)
    | some r => exact .inr ⟨rest, r, hostAccess_write_refused hr v _, .inr ⟨sp, off, width, v, rfl, hr⟩⟩

/-- Settles O24: the step delivers the reset, after which the buffer lists no byte and the epoch is the next one. -/
theorem resetEventRestoresTheResetState : Obligations.ResetEventRestoresTheResetState := by
  intro s rest hi
  refine ⟨platformReset { s with inputs := rest }, ?_, rfl, rfl, rfl, rfl, rfl, rfl, ?_, rfl, rfl⟩
  · rw [step_cons hi, deliver]
  · exact bufByte_of_buf_nil rfl

end Sys2Proof.Machine
end

section
/-! PROOFS. Accesses of the host while a command is pending (70_reset_and_hazards.md R195 to R197). -/

namespace Sys2Proof.Machine

/-- Settles O29: the access has a meaning, so it is a dropped write. -/
theorem writesWhileBusyAreDropped : Obligations.WritesWhileBusyAreDropped := by
  intro s sp off width v hb hr
  exact hostAccess_eq_next.2 ⟨0, perform_write_busy hb hr v⟩

/-- A read that has a meaning returns what its space gives, and adds it to the log. -/
theorem perform_read_of_readSpace {sp : Space} {off width : Nat} {s t : State} {v : Word}
    (hr : accessRefusal sp off width = none) (h : readSpace sp off width s = (v, t)) :
    perform (.read sp off width) s = .next (v, { t with readLog := v :: t.readLog }) := by
  simp only [perform, hr, h]

/-- A register that is not hidden while busy reads as it always does (R197). -/
theorem readReg_of_not_hidden {off : Nat} (h : hiddenWhileBusy off = false) (s : State) :
    readReg off s = (regValue s off, s) := by
  simp [readReg, h]

/-- A register that is hidden while busy reads as a free value (R196). -/
theorem readReg_hidden {off : Nat} {s : State} (hb : s.status.busy = true) (h : hiddenWhileBusy off = true) :
    readReg off s = drawWord s := by
  simp [readReg, hb, h]

/-- `CMD`, `KEY0` to `KEY3` and the reserved offsets read 0 (10_state.md R38, R41, R42). -/
theorem regValue_of_unreadable {off : Nat} (hst : off ≠ offStatus) (hlen : off ≠ offLen) (hklen : off ≠ offKlen)
    (hcsum : off ≠ offCsum) (s : State) : regValue s off = 0 := by
  rw [regValue, if_neg hst, if_neg hlen, if_neg hklen, if_neg hcsum]

theorem hiddenWhileBusy_eq_false {off : Nat} (hlen : off ≠ offLen) (hklen : off ≠ offKlen) (hcsum : off ≠ offCsum) :
    hiddenWhileBusy off = false := by
  simp [hiddenWhileBusy, hlen, hklen, hcsum]

/-- A buffer byte reads as the low byte of a free value while busy (R196). -/
theorem readBufWord_byte_busy {s : State} (hb : s.status.busy = true) (i : Nat) :
    readBufWord i 1 s = (((Config.unspecifiedRead s.draws).setWidth 8).setWidth 32, (drawWord s).2) := by
  rw [readBufWord, if_pos hb, ← BitVec.ofNat_toNat, BitVec.toNat_setWidth]
  rfl

/-- `STATUS` of a busy engine: under the invariant `DONE`, `ERR` and `ERRCODE` are 0 (R197; 10_state.md R44). -/
theorem StatusInv.statusWord_busy {st : Status} (h : StatusInv st) (hb : st.busy = true) :
    statusWord st = if st.haz then 0x09 else 0x01 := by
  have hdone : st.done = false := Bool.eq_false_iff.2 fun hd => h.not_busy_done ⟨hb, hd⟩
  have herr : st.err = false := Bool.eq_false_iff.2 fun he => by simp [h.err_done he] at hdone
  have hcode : st.errcode = 0 := h.errcode_iff.2 herr
  rw [statusWord, hb, hdone, herr, hcode]
  cases st.haz <;> decide

/-- Settles O30: register by register what the map gives or a free value, and a free value for a byte. -/
theorem readsWhileBusy : Obligations.ReadsWhileBusy := by
  intro s hb
  refine ⟨perform_statusRead s, fun hinv => (inv_iff.1 hinv).2.1.statusWord_busy hb,
    fun off hlt h4 hst hlen hklen hcsum => ?_, fun off hoff => ?_, fun i hi => ⟨_, rfl, ?_⟩⟩
  · refine perform_read_of_readSpace (accessRefusal_reg_none.2 ⟨rfl, h4, hlt⟩) ?_
    rw [readSpace, readReg_of_not_hidden (hiddenWhileBusy_eq_false hlen hklen hcsum),
      regValue_of_unreadable hst hlen hklen hcsum]
  · have hport : ∀ off ∈ [0x08, 0x0C, 0x20], accessRefusal .reg off 4 = none ∧ hiddenWhileBusy off = true := by decide
    obtain ⟨hr, hhidden⟩ := hport off hoff
    exact perform_read_of_readSpace hr (readReg_hidden hb hhidden)
  · exact perform_read_of_readSpace (accessRefusal_buf_byte.2 hi) (readBufWord_byte_busy hb i)

end Sys2Proof.Machine
end

section
/-! PROOFS. The wait: it ends with the `STATUS` of the completed command, and a host that waits as R198 asks never sets
`HAZ` (70_reset_and_hazards.md R195, R198, R199). -/

namespace Sys2Proof.Machine

/-! ### The engine's turn ends the command -/

/-- Settles O36: the command completes from every state, and the wait's last read is of what it left. -/
theorem waitEndsWithTheCompletionStatus : Obligations.WaitEndsWithTheCompletionStatus := by
  intro polls s hb
  obtain ⟨c, hc⟩ := engineTurn_next s
  rw [engineTurn_busy hb] at hc
  obtain ⟨log, hw⟩ := waitIdle_busy polls hb hc
  obtain ⟨hidle, hdone⟩ := completeStep_idle hc
  exact ⟨c, _, _, hc, hw, rfl, (statusWord_busy _).trans hidle, (statusWord_done _).trans hdone, rfl⟩

/-- After its turn the engine is idle (30_encoding.md R86). -/
theorem engineTurn_leaves_idle {s t : State} (h : engineTurn s = .next t) : t.status.busy = false := by
  rcases engineTurn_cases h with ⟨hidle, rfl⟩ | ⟨-, e, -, rfl⟩ | ⟨-, i, -, -, rfl⟩
  · exact hidle
  · rfl
  · rfl

/-- The engine's turn leaves the events still to come. -/
theorem engineTurn_inputs {s t : State} (h : engineTurn s = .next t) : t.inputs = s.inputs := by
  rcases engineTurn_cases h with ⟨-, rfl⟩ | ⟨-, e, -, rfl⟩ | ⟨-, i, -, -, rfl⟩
  · rfl
  · rfl
  · obtain ⟨-, -, hinputs, -⟩ := commandEffect_frame i s
    rw [finish_inputs, hinputs]

/-! ### The wait rule, event by event -/

theorem breaksWaitRule_host {waiting : Bool} {s : State} {acc : Access} {rest : List Event}
    (hi : s.inputs = .host acc :: rest) : breaksWaitRule waiting s = (waiting && acc != statusRead) := by
  rw [breaksWaitRule, hi]

theorem breaksWaitRule_engine {waiting : Bool} {s : State} {rest : List Event} (hi : s.inputs = .engine :: rest) :
    breaksWaitRule waiting s = false := by
  rw [breaksWaitRule, hi]

theorem waitingAfter_write_reg {waiting : Bool} {s : State} {off width : Nat} {v : Word} {rest : List Event}
    (hi : s.inputs = .host (.write .reg off width v) :: rest) :
    waitingAfter waiting s = (waiting || off == offCmd) := by
  rw [waitingAfter, hi]

theorem waitingAfter_read {waiting : Bool} {s : State} {sp : Space} {off width : Nat} {rest : List Event}
    (hi : s.inputs = .host (.read sp off width) :: rest) :
    waitingAfter waiting s = (waiting && !(Access.read sp off width == statusRead && !s.status.busy)) := by
  rw [waitingAfter, hi]

theorem waitingAfter_engine {waiting : Bool} {s : State} {rest : List Event} (hi : s.inputs = .engine :: rest) :
    waitingAfter waiting s = waiting := by
  rw [waitingAfter, hi]

theorem obeysWaitRule_succ_of_next {n : Nat} {waiting : Bool} {s t : State} (h : step s = .next t) :
    obeysWaitRule (n + 1) waiting s = (!breaksWaitRule waiting s && obeysWaitRule n (waitingAfter waiting s) t) := by
  rw [obeysWaitRule, h]

/-- A write is no read of `STATUS`. -/
theorem write_bne_statusRead (sp : Space) (off width : Nat) (v : Word) :
    (Access.write sp off width v != statusRead) = true :=
  bne_iff_ne.2 nofun

/-! ### A host that obeys the rule -/

/-- What the wait rule keeps: no write has been dropped, and the host waits while a command is pending. -/
structure WaitInv (waiting : Bool) (s : State) : Prop where
  haz : s.status.haz = false
  waits : s.status.busy = true → waiting = true

/-- While the engine is idle the host may be waiting or not. -/
theorem waitInv_of_idle {s : State} (hz : s.status.haz = false) (hb : s.status.busy = false) (waiting : Bool) :
    WaitInv waiting s :=
  ⟨hz, fun hbusy => absurd (hbusy.symm.trans hb) (by decide)⟩

theorem waitInv_engineTurn {s t : State} (hz : s.status.haz = false) (h : engineTurn s = .next t) (waiting : Bool) :
    WaitInv waiting t :=
  waitInv_of_idle ((engineTurn_haz h).trans hz) (engineTurn_leaves_idle h) waiting

/-- A register write issues a command only at `CMD` (30_encoding.md R85). -/
theorem writeReg_status {off : Nat} (h : off ≠ offCmd) (v : Word) (s : State) :
    (writeReg off v s).status = s.status := by
  rw [writeReg, if_neg h]
  repeat' split
  all_goals rfl

/-- A write performed while idle: the host that makes the engine busy has written `CMD`, and waits from then on. -/
theorem waitInv_writeSpace {s : State} (hz : s.status.haz = false) (hb : s.status.busy = false) {waiting : Bool}
    {sp : Space} {off width : Nat} {v : Word} {u : State} {rest : List Event}
    (hi : u.inputs = .host (.write sp off width v) :: rest) :
    WaitInv (waitingAfter waiting u) (writeSpace sp off width v s) := by
  have hz' : (writeSpace sp off width v s).status.haz = false := (writeSpace_haz sp off width v s).trans hz
  cases sp with
  | buf => exact waitInv_of_idle hz' hb _
  | reg =>
    by_cases hcmd : off = offCmd
    · refine ⟨hz', fun _ => ?_⟩
      rw [waitingAfter_write_reg hi, hcmd, beq_self_eq_true, Bool.or_true]
    · refine waitInv_of_idle hz' ?_ _
      rw [writeSpace, writeReg_status hcmd, hb]

/-- Every step that does not break the wait rule keeps `HAZ` clear: the host's writes find the engine idle. -/
theorem WaitInv.step {waiting : Bool} {s t : State} (h : WaitInv waiting s) (hobeys : breaksWaitRule waiting s = false)
    (ht : step s = .next t) : WaitInv (waitingAfter waiting s) t := by
  rcases step_cases ht with ⟨-, ht⟩ | ⟨acc, rest, hi, ht⟩ | ⟨rest, -, ht⟩ | ⟨rest, -, rfl⟩
  · exact waitInv_engineTurn h.haz ht _
  · rw [breaksWaitRule_host hi] at hobeys
    rcases hostAccess_cases ht with
      ⟨sp, off, width, rfl, -, -, hread⟩ | ⟨sp, off, width, v, rfl, -, ⟨hbusy, -⟩ | ⟨hidle, rfl⟩⟩
    · have hstatus : t.status = s.status := by rw [hread]
      refine ⟨hstatus ▸ h.haz, fun hbusy => ?_⟩
      rw [hstatus] at hbusy
      rw [waitingAfter_read hi, h.waits hbusy, hbusy, Bool.not_true, Bool.and_false, Bool.not_false, Bool.and_true]
    · rw [h.waits hbusy, Bool.true_and, write_bne_statusRead] at hobeys
      cases hobeys
    · exact waitInv_writeSpace (s := { s with inputs := rest }) h.haz hidle hi
  · exact waitInv_engineTurn (s := { s with inputs := rest }) h.haz ht _
  · exact waitInv_of_idle rfl rfl _

/-- Settles O37, by induction on the number of steps: each step keeps `WaitInv`. -/
theorem waitRuleKeepsHazardClear : Obligations.WaitRuleKeepsHazardClear := by
  intro n waiting s t hz hwaits hobeys hsteps
  have h : WaitInv waiting s := ⟨hz, hwaits⟩
  clear hz hwaits
  induction n generalizing waiting s with
  | zero => cases hsteps; exact h.haz
  | succ n ih =>
    obtain ⟨u, hu, hsteps⟩ := steps_succ_next hsteps
    rw [obeysWaitRule_succ_of_next hu, Bool.and_eq_true, Bool.not_eq_true'] at hobeys
    obtain ⟨hfirst, hobeys⟩ := hobeys
    exact ih _ u hobeys hsteps (h.step hfirst hu)

/-! ### A host that looks too late -/

/-- A run that writes `CMD` while idle and gives the engine its turn obeys the rule so far, and leaves the host waiting
before an idle engine, the command's completion unread. -/
theorem obeysWaitRule_command_then_turn (s : State) (w : Word) (events : List Event) (hb : s.status.busy = false) :
    ∃ t, t.status.busy = false ∧ t.inputs = events ∧ ∀ n, obeysWaitRule (n + 2) false
      { s with inputs := .host (.write .reg offCmd 4 w) :: .engine :: events } = obeysWaitRule n true t := by
  have hissue : step { s with inputs := .host (.write .reg offCmd 4 w) :: .engine :: events } =
      .next (accept w { s with inputs := .engine :: events }) := by
    rw [step_cons rfl]
    exact (commandWriteIsAcceptedWhileIdle { s with inputs := .engine :: events } w).1 hb
  obtain ⟨t, ht⟩ := engineTurn_next { accept w s with inputs := events }
  have hturn : step (accept w { s with inputs := .engine :: events }) = .next t := by
    rw [step_cons (accept_inputs w _)]
    exact ht
  refine ⟨t, engineTurn_leaves_idle ht, engineTurn_inputs ht, fun n => ?_⟩
  rw [obeysWaitRule_succ_of_next hissue, breaksWaitRule_host rfl, waitingAfter_write_reg rfl,
    obeysWaitRule_succ_of_next hturn, breaksWaitRule_engine (accept_inputs w _), waitingAfter_engine (accept_inputs w _)]
  rfl

/-- An access other than a read of `STATUS` breaks the rule while the host waits. -/
theorem obeysWaitRule_write_waiting {n : Nat} {s : State} {sp : Space} {off width : Nat} {v : Word}
    {rest : List Event} (hi : s.inputs = .host (.write sp off width v) :: rest) :
    obeysWaitRule (n + 1) true s = false := by
  rw [obeysWaitRule, breaksWaitRule_host hi, write_bne_statusRead]
  rfl

/-- A read of `STATUS` from an idle engine ends the wait. -/
theorem obeysWaitRule_statusRead_idle {n : Nat} {waiting : Bool} {s : State} {rest : List Event}
    (hb : s.status.busy = false) (hi : s.inputs = .host statusRead :: rest) :
    obeysWaitRule (n + 1) waiting s =
      obeysWaitRule n false { s with inputs := rest, readLog := statusWord s.status :: s.readLog } := by
  have hstep : step s = .next { s with inputs := rest, readLog := statusWord s.status :: s.readLog } := by
    rw [step_cons hi]
    exact hostAccess_eq_next.2 ⟨_, perform_statusRead _⟩
  have hallowed : breaksWaitRule waiting s = false := by
    rw [breaksWaitRule_host hi, bne_self_eq_false, Bool.and_false]
  have hafter : waitingAfter waiting s = false := by
    rw [waitingAfter_read hi, hb]
    exact Bool.and_false _
  rw [obeysWaitRule_succ_of_next hstep, hallowed, hafter]
  rfl

/-- One access breaks no rule while the host does not wait. -/
theorem obeysWaitRule_one_not_waiting (s : State) : obeysWaitRule 1 false s = true := by
  have hallowed : breaksWaitRule false s = false := by
    unfold breaksWaitRule
    split <;> rfl
  rw [obeysWaitRule, hallowed]
  cases step s <;> rfl

/-- Settles O38: after the engine's turn the host still waits, and only a read of `STATUS` ends that. -/
theorem unpolledAccessBreaksTheWaitRule : Obligations.UnpolledAccessBreaksTheWaitRule := by
  intro s w v rest hb
  constructor
  · obtain ⟨t, -, hi, hobeys⟩ :=
      obeysWaitRule_command_then_turn s w (.host (.write .reg 0x08 4 v) :: rest) hb
    exact (hobeys 1).trans (obeysWaitRule_write_waiting hi)
  · obtain ⟨t, hidle, hi, hobeys⟩ :=
      obeysWaitRule_command_then_turn s w (.host statusRead :: .host (.write .reg 0x08 4 v) :: rest) hb
    exact (hobeys 2).trans ((obeysWaitRule_statusRead_idle hidle hi).trans (obeysWaitRule_one_not_waiting _))

end Sys2Proof.Machine
end

section
/-! PROOFS. The words of the opcode table and of vectors V5.2 to V5.5, as numbers (30_encoding.md R76, R78). -/

namespace Sys2Proof.Machine

/-- The number of a command's word is read as that command (R76). -/
theorem decodeTableWord_32_encode (i : Instr) : decodeTableWord 32 (encode i).toNat = some i := by
  rw [decodeTableWord_32_eq_some, BitVec.ofNat_toNat, BitVec.setWidth_eq]
  exact decodeWord_encode i

/-- A number whose word is none of the six is read as no command (R78). -/
theorem decodeTableWord_32_of_illegal {w : Nat} (h : BitVec.ofNat 32 w ∉ [(1 : Word), 2, 3, 4, 5, 6]) :
    decodeTableWord 32 w = none :=
  Option.eq_none_iff_forall_ne_some.2 fun i hi =>
    decodeWord_ne_ok_of_illegal h i (decodeTableWord_32_eq_some.1 hi)

/-- Settles O3: the first six numbers are the commands' own words, and the words of the other six are none of these. -/
theorem tableWordsDecodeAsTheTableSays : Obligations.TableWordsDecodeAsTheTableSays :=
  ⟨decodeTableWord_32_encode .csinit, decodeTableWord_32_encode .csupd, decodeTableWord_32_encode .csum,
    decodeTableWord_32_encode .enc, decodeTableWord_32_encode .dec, decodeTableWord_32_encode .keyclr,
    decodeTableWord_32_of_illegal (by decide), decodeTableWord_32_of_illegal (by decide),
    decodeTableWord_32_of_illegal (by decide), decodeTableWord_32_of_illegal (by decide),
    decodeTableWord_32_of_illegal (by decide), decodeTableWord_32_of_illegal (by decide)⟩

end Sys2Proof.Machine
end

section
/-! PROOFS. The reset state has the invariant (10_state.md R43, R44). -/

namespace Sys2Proof.Machine

/-- Settles O21: at reset the accumulators are 1 and 0, `STATUS` is clear and the buffer lists no byte. -/
theorem resetMeetsTheInvariant : Obligations.ResetMeetsTheInvariant := inv_reset

end Sys2Proof.Machine
end

section
/-! PROOFS. Vectors V3.1, V3.5 and V3.11 of the default cipher (95_test_vectors.md section 3). -/

namespace Sys2Proof.Machine

/-- The mode on one block is the cipher on the two words of the block (41_cipher.md R112, R120). -/
theorem ecbMap_eq_of_block {f : Word × Word → Word × Word} {p c : List Byte} {v0 v1 w0 w1 : Word}
    (hp : p = toLE32 v0 ++ toLE32 v1) (hc : c = toLE32 w0 ++ toLE32 w1) (hf : f (v0, v1) = (w0, w1)) :
    ecbMap f p = c := by
  have hblock := ecbMap_block f v0 v1 []
  rwa [hf, ecbMap_nil, List.append_nil, List.append_nil, ← hp, ← hc] at hblock

/-- `BLK_ENC` on V3.1: the zero key and the zero block. -/
theorem blkEnc_zero :
    cfg.blockCipher.enc { k0 := 0, k1 := 0, k2 := 0, k3 := 0 } (0, 0) = (0xDEE9D4D8, 0xF7131ED9) := by decide

/-- `BLK_ENC` on the words of V3.5: the key bytes 00 to 0F and the block "ABCDEFGH". -/
theorem blkEnc_ascii :
    cfg.blockCipher.enc { k0 := 0x03020100, k1 := 0x07060504, k2 := 0x0B0A0908, k3 := 0x0F0E0D0C }
      (0x44434241, 0x48474645) = (0x7E69E7CA, 0x21E96E00) := by decide

/-- `BLK_DEC` on the words of V3.11: the key bytes 00 to 0F and the zero block. `BLK_ENC` takes the result to the zero
block, and `BLK_DEC` undoes it (R113 P2). -/
theorem blkDec_zero :
    cfg.blockCipher.dec { k0 := 0x03020100, k1 := 0x07060504, k2 := 0x0B0A0908, k3 := 0x0F0E0D0C }
      (0, 0) = (0xBEECE75F, 0x13A2C28F) := by
  have henc : cfg.blockCipher.enc { k0 := 0x03020100, k1 := 0x07060504, k2 := 0x0B0A0908, k3 := 0x0F0E0D0C }
      (0xBEECE75F, 0x13A2C28F) = (0, 0) := by decide
  rw [← henc]
  exact cfg_blockCipher_inverse.dec_enc _ _

/-- Settles O44: V3.1 is the cipher itself; V3.5 and V3.11 are one block each, to which the mode adds only the byte
order of the words. -/
theorem defaultCipherVectors : Obligations.DefaultCipherVectors := by
  refine ⟨blkEnc_zero, ?_, ?_⟩
  · exact ecbMap_eq_of_block (by decide) (by decide) blkEnc_ascii
  · exact ecbMap_eq_of_block (by decide) (by decide) blkDec_zero

end Sys2Proof.Machine
end
